-- ==== Sys2Proof/Word.lean ====
section
/-! DEFINITION. The one datum of RC4CORE: the unsigned byte (spec 00_scope.md R5, R7).
Its arithmetic (add8, inc8, xor8, umod, trunc8) is in Sys2Proof/Machine/Ops.lean. -/

namespace Sys2Proof

/-- A byte: entry of the store, cursor, key, data and keystream byte (R5: `BYTE_W = 8`). -/
abbrev Byte := BitVec 8

end Sys2Proof
end

