-- ==== Sys2Proof/Syntax.lean ====
section
/-! DEFINITION. Commands, operands, requests and responses of RC4CORE (spec 30_encoding.md R80 to
R85; 60_exceptions.md R200). One constructor of `Instr` per row of spec/opcode_table.json. -/

namespace Sys2Proof

/-- The six command names of the opcode map (R82), without operands. -/
inductive Op where
  | stat
  | clear
  | sched
  | gen
  | xorc
  | crypt
  deriving DecidableEq, Repr

/-- A command with its operands (R82, R83): byte sequences, and `count` a non-negative integer. -/
inductive Instr where
  /-- STAT, 0x01 (R171) -/
  | stat
  /-- CLEAR, 0x02 (R172) -/
  | clear
  /-- SCHED, 0x10 (R110) -/
  | sched (key : List Byte)
  /-- GEN, 0x20 (R130) -/
  | gen (count : Nat)
  /-- XORC, 0x30 (R150) -/
  | xorc (data ks : List Byte)
  /-- CRYPT, 0x31 (R154) -/
  | crypt (key data : List Byte)
  deriving DecidableEq, Repr

/-- The operands as they stand beside the command byte, already separated (R83, D4; log entry 1).
A command reads the ones it takes and no other. -/
structure Operands where
  key : List Byte := []
  data : List Byte := []
  ks : List Byte := []
  count : Nat := 0
  deriving DecidableEq, Repr

/-- What the host hands to the block: one command byte and the operands (R80, R83). -/
structure Request where
  cmd : Byte
  ops : Operands
  deriving DecidableEq, Repr

/-- The refusal kinds (R200). -/
inductive ErrKind where
  /-- the key is empty: SCHED, CRYPT (R201) -/
  | invalidKey
  /-- host-side hex decoder only, never the block (R203) -/
  | invalidCiphertextFormat
  /-- `len(data) != len(ks)`: XORC (R202) -/
  | lengthMismatch
  /-- reserved command byte: the decoder (R204) -/
  | illegalCommand
  /-- `phase` is not KEYED: GEN (R205) -/
  | notKeyed
  /-- the data is empty: CRYPT (R207) -/
  | emptyInput
  /-- an operand beyond `KEY_MAX` or `LEN_MAX` (R206) -/
  | operandRange
  deriving DecidableEq, Repr

/-- The block's answer to one command (R85): `Ok` with a payload, or a typed refusal with none. -/
inductive Response where
  | ok (payload : List Byte)
  | err (kind : ErrKind)
  deriving DecidableEq, Repr

/-- The name of a command without its operands. -/
def Instr.op : Instr → Op
  | .stat => .stat
  | .clear => .clear
  | .sched _ => .sched
  | .gen _ => .gen
  | .xorc _ _ => .xorc
  | .crypt _ _ => .crypt

end Sys2Proof
end

