-- ==== Sys2Proof/Decode.lean ====
section
/-! DEFINITION. The decoder and the encoder (spec 30_encoding.md R80 to R86). The decoder is written
from the byte column of R82 (mask and match of spec/opcode_table.json), the encoder from the unit and
func columns, so that their agreement says something. -/

namespace Sys2Proof

/-- One row of the opcode map: all bits of `mask` of the command byte must equal `word`. -/
structure OpcodeRow where
  op : Op
  mask : Byte
  word : Byte
  deriving DecidableEq, Repr

/-- The opcode map (R82): six rows, each compared in all 8 bits. -/
def opcodeRows : List OpcodeRow :=
  [ { op := .stat,  mask := 0xFF#8, word := 0x01#8 },
    { op := .clear, mask := 0xFF#8, word := 0x02#8 },
    { op := .sched, mask := 0xFF#8, word := 0x10#8 },
    { op := .gen,   mask := 0xFF#8, word := 0x20#8 },
    { op := .xorc,  mask := 0xFF#8, word := 0x30#8 },
    { op := .crypt, mask := 0xFF#8, word := 0x31#8 } ]

/-- A row takes a command byte. -/
def rowMatches (cmd : Byte) (r : OpcodeRow) : Bool := (cmd &&& r.mask) == r.word

/-- The command a byte names, or none for the 250 reserved bytes (R86). -/
def lookupOp (cmd : Byte) : Option Op := (opcodeRows.find? (rowMatches cmd)).map OpcodeRow.op

/-- The command with the operands it takes, read from the request's operands (R82, R83). -/
def withOperands (op : Op) (o : Operands) : Instr :=
  match op with
  | .stat => .stat
  | .clear => .clear
  | .sched => .sched o.key
  | .gen => .gen o.count
  | .xorc => .xorc o.data o.ks
  | .crypt => .crypt o.key o.data

/-- THE DECODER, total on requests: a command, or the refusal `IllegalCommand` of a reserved byte
(R86, R204). Decoding comes before every operand check (R209). -/
def decode (r : Request) : Except ErrKind Instr :=
  match lookupOp r.cmd with
  | some op => .ok (withOperands op r.ops)
  | none => .error .illegalCommand

/-- Field `unit` of the command byte, bits 7:4 (R81). -/
def unitField (cmd : Byte) : BitVec 4 := cmd.extractLsb' 4 4

/-- Field `func` of the command byte, bits 3:0 (R81). -/
def funcField (cmd : Byte) : BitVec 4 := cmd.extractLsb' 0 4

/-- The unit a command belongs to (R81, R82): 0 control, 1 KeyScheduler, 2 KeystreamGenerator,
3 CipherEngine. -/
def unitOf : Op → BitVec 4
  | .stat => 0
  | .clear => 0
  | .sched => 1
  | .gen => 2
  | .xorc => 3
  | .crypt => 3

/-- The function within the unit (R81, R82). -/
def funcOf : Op → BitVec 4
  | .stat => 1
  | .clear => 2
  | .sched => 0
  | .gen => 0
  | .xorc => 0
  | .crypt => 1

/-- The command byte in format `CMD8` (R81). -/
def commandByte (op : Op) : Byte := unitOf op ++ funcOf op

/-- The operands of a command, each in its place, the places it does not use empty. -/
def operandsOf : Instr → Operands
  | .stat => {}
  | .clear => {}
  | .sched key => { key := key }
  | .gen count => { count := count }
  | .xorc data ks => { data := data, ks := ks }
  | .crypt key data => { key := key, data := data }

/-- THE ENCODER: the request that names a command (R80 to R83). -/
def encode (i : Instr) : Request := { cmd := commandByte i.op, ops := operandsOf i }

/-- Operands of zeros: one zero byte in each sequence and the count zero (log entry 10). -/
def zeroOperands : Operands :=
  { key := [0x00#8], data := [0x00#8], ks := [0x00#8], count := 0 }

/-- The request of an opcode-table row whose `nbits` low bits are `w` and whose operand words are
zeros (log entry 10). The command byte is the first and only encoded word (R80). -/
def tableRequest (nbits w : Nat) : Request :=
  { cmd := BitVec.ofNat 8 (w % 2 ^ nbits), ops := zeroOperands }

/-- The instruction the decoder reads from a row's word; none for a reserved byte. -/
def decodeTableWord (nbits w : Nat) : Option Instr :=
  match decode (tableRequest nbits w) with
  | .ok i => some i
  | .error _ => none

end Sys2Proof
end

