-- ==== Sys2Proof/Config.lean ====
section
/-! DEFINITION. What an implementation fixes (spec 00_scope.md R5, R6) and the one free value
(spec 93_implementation_defined.md U1). -/

namespace Sys2Proof.Config

/-- Number of cells of the permutation store (R5). -/
def permSize : Nat := 256

/-- The open parameters of the block (R6); `none` is the spec's default, unbounded. -/
structure Params where
  /-- `KEY_MAX`, the largest key length in bytes. -/
  keyMax : Option Nat
  /-- `LEN_MAX`, the largest `count` of GEN and data length of XORC and CRYPT. -/
  lenMax : Option Nat
  deriving DecidableEq, Repr

/-- The parameters at the spec's defaults (R6): both unbounded. -/
def Params.default : Params := { keyMax := none, lenMax := none }

/-- `CHAR_POLICY` (R6, R182): what the HOST does with a character code above 255. -/
inductive CharPolicy where
  /-- keep the low 8 bits (the spec's default) -/
  | truncate
  /-- the operation is a no-op -/
  | reject
  deriving DecidableEq, Repr

/-- `CHAR_POLICY` at the spec's default (R6, R182). -/
def CharPolicy.default : CharPolicy := .truncate

/-- FREE VALUE (U1; log entry 5). The byte an unspecified cell of the store holds after CLEAR or
the reset event, one for each draw. It has no body: nothing can be proved of a value of it. -/
opaque freeByte : Nat → Byte

end Sys2Proof.Config
end

