-- ==== Sys2Proof/Machine/State.lean ====
section
/-! DEFINITION. The state of one instance of RC4CORE (spec 10_state.md R20 to R34), what surrounds it
(the host's commands, the responses, the open parameters), and the ways a step can stop. -/

namespace Sys2Proof.Machine

/-- The block's one byte memory (20_memory.md R50), as (index, byte) pairs in the canonical form of
`Memory.wf` (Machine/Ops.lean): indices strictly rising and below 256, no entry equal to what an
unlisted cell reads as (log entry 14). -/
abbrev Memory := List Host.Cell

/-- PermutationState (00_scope.md R2; 10_state.md R20): the store and the cursor pair. -/
structure PermutationState where
  /-- the permutation store `S[0..255]` -/
  S : Memory
  /-- cursor `i`, `x[0]` -/
  i : Byte
  /-- cursor `j`, `x[1]` -/
  j : Byte
  deriving DecidableEq, Repr

/-- The sequencer register `phase` (R20, R29; U6: three values and no fourth). -/
inductive Phase where
  /-- nobody holds a valid permutation -/
  | idle
  /-- a permutation is scheduled and not yet used -/
  | keyed
  /-- the scheduled permutation has been used -/
  | spent
  deriving DecidableEq, Repr

/-- What can come to the block from outside (10_state.md R29; 70_reset_and_hazards.md R230). -/
inductive HostEvent where
  /-- the host issues a command -/
  | command (r : Request)
  /-- the platform resets the block between commands -/
  | reset
  /-- the platform resets the block while this command is running (R230; U14; log entry 8) -/
  | resetDuring (r : Request)
  deriving DecidableEq, Repr

/-- The whole state. `perm` and `phase` are the block's (R20); the other four fields are the model's
own (log entries 2, 3 and 5). -/
structure State where
  perm : PermutationState
  phase : Phase
  /-- the open parameters `KEY_MAX`, `LEN_MAX` (00_scope.md R6); no step changes them -/
  params : Config.Params
  /-- what the host and the platform will still do, next first -/
  inbox : List HostEvent
  /-- the responses given so far, oldest first (70_reset_and_hazards.md R235) -/
  outbox : List Response
  /-- how many free bytes have been drawn (U1) -/
  freeCount : Nat
  deriving DecidableEq, Repr

/-- There is no fault: every command ends in a response (60_exceptions.md R211;
70_reset_and_hazards.md R249) and no access is out of range (20_memory.md R51, R53). Nothing raises
one, so the type has no constructor. -/
inductive Fault where
  deriving DecidableEq, Repr

/-- Why an instruction has no meaning. -/
inductive Refusal where
  /-- Raised by an arm of `exec` for an instruction the model does not have yet; safe (the run
  stops). No arm raises it: all six commands are modelled. -/
  | notModelled (mnemonic : String)
  deriving DecidableEq, Repr

/-- Right after reset (R34, R230): IDLE, both cursors 0. The store's bytes are unspecified by the
spec; memory lists nothing (log entry 4). The parameters are the spec's defaults (R6). -/
def State.reset : State :=
  { perm := { S := [], i := 0#8, j := 0#8 }
    phase := .idle
    params := Config.Params.default
    inbox := []
    outbox := []
    freeCount := 0 }

end Sys2Proof.Machine
end

