-- ==== Sys2Proof/Machine/Ops.lean ====
section
/-! DEFINITION. The primitives of the spec's pseudocode (00_scope.md R8), the operations on the store
(20_memory.md R50 to R55), and how a command ends: a response, a refusal, the loss of the store. -/

namespace Sys2Proof.Machine

/-! ## Byte arithmetic -/

/-- `add8(a, b) = (a + b) mod 256` (R8, R9). -/
def add8 (a b : Byte) : Byte := a + b

/-- `inc8(a) = add8(a, 1)`, so `inc8(255) = 0` (R8). -/
def inc8 (a : Byte) : Byte := add8 a 1#8

/-- `xor8(a, b)`, bit by bit, no carry (R8). -/
def xor8 (a b : Byte) : Byte := a ^^^ b

/-- `umod(a, n)`, used with `n >= 1` only (R8). -/
def umod (a n : Nat) : Nat := a % n

/-- `trunc8(v) = v mod 256` (R8). -/
def trunc8 (v : Nat) : Byte := BitVec.ofNat 8 v

/-- `zext_N(v)`: zero bits on top (R8). -/
def zext {w : Nat} (n : Nat) (v : BitVec w) : BitVec n := v.setWidth n

/-- `sext_N(v)`: part of the fixed notation, used by no rule (R8). -/
def sext {w : Nat} (n : Nat) (v : BitVec w) : BitVec n := v.signExtend n

/-! ## The permutation store -/

/-- What an unlisted cell reads as (log entry 4). -/
def unlistedByte : Byte := 0x00#8

/-- The entries from `lo` on are in canonical form. -/
def Memory.wfFrom : Nat → List Host.Cell → Bool
  | _, [] => true
  | lo, c :: t =>
    Nat.ble lo c.1 && Nat.blt c.1 Config.permSize && !(c.2 == unlistedByte)
      && Memory.wfFrom (c.1 + 1) t

/-- The canonical form: indices strictly rising and below 256 (R22: exactly 256 cells), no entry
equal to what an unlisted cell reads as. -/
def Memory.wf (m : List Host.Cell) : Bool := Memory.wfFrom 0 m

/-- `S[a]`: one byte, no side effect (R8; 20_memory.md R54). -/
def Memory.read : List Host.Cell → Byte → Byte
  | [], _ => unlistedByte
  | c :: t, a => bif Nat.beq c.1 a.toNat then c.2 else Memory.read t a

/-- The entries other than those at `a`. -/
def Memory.erase (a : Nat) : List Host.Cell → List Host.Cell
  | [] => []
  | c :: t => bif Nat.beq c.1 a then Memory.erase a t else c :: Memory.erase a t

/-- The entry `(a, v)` in its place. -/
def Memory.insert (a : Nat) (v : Byte) : List Host.Cell → List Host.Cell
  | [] => [(a, v)]
  | c :: t => bif Nat.blt a c.1 then (a, v) :: c :: t else c :: Memory.insert a v t

/-- `S[a] <- v`: the whole cell, and no other (R8; 20_memory.md R54). -/
def Memory.write (m : List Host.Cell) (a v : Byte) : List Host.Cell :=
  bif v == unlistedByte then Memory.erase a.toNat m
  else Memory.insert a.toNat v (Memory.erase a.toNat m)

/-- `swap(a, b)`: both reads before both writes (R8; 20_memory.md R54; D24). -/
def Memory.swap (m : List Host.Cell) (a b : Byte) : List Host.Cell :=
  Memory.write (Memory.write m a (Memory.read m b)) b (Memory.read m a)

/-- The entry of cell `n` when it holds `v`: none if an unlisted cell reads so. -/
def Memory.entry (n : Nat) (v : Byte) : Option Host.Cell :=
  bif v == unlistedByte then none else some (n, v)

/-- The store in which cell `a` holds `f a`: all 256 cells written, whatever they held. Irreducible, so
that no unification unrolls the 256 cells; Laws/Memory.lean says what it is. -/
@[irreducible] def Memory.ofFn (f : Byte → Byte) : List Host.Cell :=
  (List.range Config.permSize).filterMap fun n => Memory.entry n (f (trunc8 n))

/-! ## The cursors as registers -/

/-- `x[r]` (10_state.md R22): `x[0]` is `i`, `x[1]` is `j`. -/
def readCursor (p : PermutationState) (r : Fin 2) : Byte := if r = 0 then p.i else p.j

/-- `x[r] <- v` (10_state.md R22). -/
def writeCursor (p : PermutationState) (r : Fin 2) (v : Byte) : PermutationState :=
  if r = 0 then { p with i := v } else { p with j := v }

/-! ## How a command ends -/

/-- `respond Ok(payload)` (R8; 30_encoding.md R85). -/
def State.respond (s : State) (payload : List Byte) : State :=
  { s with outbox := s.outbox ++ [.ok payload] }

/-- `raise Refusal(kind)` (60_exceptions.md R208), the one operation every refusal goes through: the
response is the kind with an empty payload, and no bit of the block's state changes. Nothing is saved
and nothing is returned from (R210). -/
def State.raise (s : State) (kind : ErrKind) : State :=
  { s with outbox := s.outbox ++ [.err kind] }

/-- A command's checks come before its effect (R208, R209, R211): the first failing check refuses it,
otherwise it runs to its end. -/
def State.guarded (s : State) (check : Option ErrKind) (done : State) :
    Host.Outcome State Fault Refusal :=
  match check with
  | some kind => .next (s.raise kind)
  | none => .next done

/-- The effect of CLEAR and of the reset event on the block (10_state.md R34; 43_control.md R172;
70_reset_and_hazards.md R230): IDLE, both cursors 0, every cell of the store a free value (U1). -/
def State.discard (s : State) : State :=
  { s with
    perm :=
      { S := Memory.ofFn fun a => Config.freeByte (s.freeCount + a.toNat)
        i := 0#8
        j := 0#8 }
    phase := .idle
    freeCount := s.freeCount + Config.permSize }

end Sys2Proof.Machine
end

