-- ==== Sys2Proof/Machine/Operands.lean ====
section
/-! DEFINITION. The operand forms (20_memory.md R51) and each command's checks in the order of its
pseudocode (60_exceptions.md R209). -/

namespace Sys2Proof.Machine

/-- Key, cyclic: `key[umod(k, L)]` (20_memory.md R51; 40_ksa.md R115). Read only with `L >= 1`, when
the index is in range (log entry 15). -/
def keyByte (key : List Byte) (k : Byte) : Byte := key.getD (umod k.toNat key.length) 0#8

/-- The PRGA output index `t = add8(S[i], S[j])` (20_memory.md R51, R55). -/
def outputIndex (m : List Host.Cell) (i j : Byte) : Byte := add8 (Memory.read m i) (Memory.read m j)

/-- A length beyond an open bound; never with the default `none` (00_scope.md R6). -/
def exceeds (bound : Option Nat) (n : Nat) : Bool :=
  match bound with
  | none => false
  | some b => Nat.blt b n

/-- SCHED: `InvalidKey`, then `OperandRange` (R209; 40_ksa.md R110). -/
def checkSched (p : Config.Params) (key : List Byte) : Option ErrKind :=
  if key.isEmpty then some .invalidKey
  else if exceeds p.keyMax key.length then some .operandRange
  else none

/-- GEN: `NotKeyed`, then `OperandRange` (R209; 41_prga.md R130). -/
def checkGen (phase : Phase) (p : Config.Params) (count : Nat) : Option ErrKind :=
  if phase ≠ .keyed then some .notKeyed
  else if exceeds p.lenMax count then some .operandRange
  else none

/-- XORC: `LengthMismatch`, then `OperandRange` (R209; 42_cipher_engine.md R150). -/
def checkXorc (p : Config.Params) (data ks : List Byte) : Option ErrKind :=
  if data.length ≠ ks.length then some .lengthMismatch
  else if exceeds p.lenMax data.length then some .operandRange
  else none

/-- CRYPT: `InvalidKey`, `EmptyInput`, `OperandRange` for the key, `OperandRange` for the data
(R209; 42_cipher_engine.md R154). -/
def checkCrypt (p : Config.Params) (key data : List Byte) : Option ErrKind :=
  if key.isEmpty then some .invalidKey
  else if data.isEmpty then some .emptyInput
  else if exceeds p.keyMax key.length then some .operandRange
  else if exceeds p.lenMax data.length then some .operandRange
  else none

end Sys2Proof.Machine
end

