-- ==== Sys2Proof/Machine/KeyScheduler.lean ====
section
/-! DEFINITION. The KeyScheduler: SCHED (spec 40_ksa.md R110 to R118). -/

namespace Sys2Proof.Machine

/-- KSA.FILL (R112): `S[n] = n`, whatever the store held. -/
def ksaFill : List Host.Cell := Memory.ofFn fun a => a

/-- KSA.ROUND(ki) on the store and the accumulator `kj` (R113): the accumulator first, then the swap
with the new accumulator. -/
def ksaRound (key : List Byte) (ki : Byte) (c : List Host.Cell × Byte) : List Host.Cell × Byte :=
  let kj := add8 (add8 c.2 (Memory.read c.1 ki)) (keyByte key ki)
  (Memory.swap c.1 ki kj, kj)

/-- The fill and the first `n` rounds, `ki = 0, 1, ..., n - 1` (R111). The accumulator starts at 0
(R114; log entry 6). -/
def ksaRounds (key : List Byte) : Nat → List Host.Cell × Byte
  | 0 => (ksaFill, 0#8)
  | n + 1 => ksaRound key (trunc8 n) (ksaRounds key n)

/-- The PermutationState SCHED leaves (R111, R116): exactly 256 rounds, both cursors 0. Irreducible, so
that no unification unrolls the rounds; Laws/Algorithm.lean says what it is. -/
@[irreducible] def schedule (key : List Byte) : PermutationState :=
  { S := (ksaRounds key Config.permSize).1, i := 0#8, j := 0#8 }

/-- SCHED (R110). -/
def execSched (key : List Byte) (s : State) : Host.Outcome State Fault Refusal :=
  s.guarded (checkSched s.params key)
    (({ s with perm := schedule key, phase := .keyed } : State).respond [])

end Sys2Proof.Machine
end

