-- ==== Sys2Proof/Machine/Keystream.lean ====
section
/-! DEFINITION. The KeystreamGenerator: GEN (spec 41_prga.md R130 to R139). -/

namespace Sys2Proof.Machine

/-- PRGA.START (R132): both cursors 0, the permutation untouched. -/
def prgaStart (p : PermutationState) : PermutationState := { p with i := 0#8, j := 0#8 }

/-- The store and cursors after a PRGA round (R133): `i`, then `j` with the cell at the new `i`, then
the swap with both new cursors. -/
def prgaAdvance (p : PermutationState) : PermutationState :=
  let i := inc8 p.i
  let j := add8 p.j (Memory.read p.S i)
  { S := Memory.swap p.S i j, i := i, j := j }

/-- The byte emitted from the store after the round's swap (R133; 20_memory.md R55). -/
def prgaEmit (p : PermutationState) : Byte := Memory.read p.S (outputIndex p.S p.i p.j)

/-- `n` PRGA rounds and the bytes they emit, in order (R131). -/
def prgaRun : Nat → PermutationState → PermutationState × List Byte
  | 0, p => (p, [])
  | n + 1, p =>
    let q := prgaAdvance p
    let r := prgaRun n q
    (r.1, prgaEmit q :: r.2)

/-- GEN (R130). Every admitted GEN ends in SPENT, `count = 0` too (R134, R135). -/
def execGen (count : Nat) (s : State) : Host.Outcome State Fault Refusal :=
  let r := prgaRun count (prgaStart s.perm)
  s.guarded (checkGen s.phase s.params count)
    (({ s with perm := r.1, phase := .spent } : State).respond r.2)

end Sys2Proof.Machine
end

