-- ==== Sys2Proof/Machine/CipherEngine.lean ====
section
/-! DEFINITION. The CipherEngine: XORC and CRYPT (spec 42_cipher_engine.md R150 to R161). -/

namespace Sys2Proof.Machine

/-- `out[k] = xor8(data[k], ks[k])` for all k (R150, R151); called with equal lengths only. -/
def xorBytes (data ks : List Byte) : List Byte := List.zipWith xor8 data ks

/-- XORC (R150): writes no state. -/
def execXorc (data ks : List Byte) (s : State) : Host.Outcome State Fault Refusal :=
  s.guarded (checkXorc s.params data ks) (s.respond (xorBytes data ks))

/-- One PRGA round per data byte, the byte it emits combined at once with the data byte of the same
position (R154, R155). -/
def cryptRun : List Byte → PermutationState → PermutationState × List Byte
  | [], p => (p, [])
  | d :: data, p =>
    let q := prgaAdvance p
    let r := cryptRun data q
    (r.1, xor8 d (prgaEmit q) :: r.2)

/-- CRYPT (R154): schedules its own permutation, then generates and combines; ends in SPENT. -/
def execCrypt (key data : List Byte) (s : State) : Host.Outcome State Fault Refusal :=
  let r := cryptRun data (prgaStart (schedule key))
  s.guarded (checkCrypt s.params key data)
    (({ s with perm := r.1, phase := .spent } : State).respond r.2)

end Sys2Proof.Machine
end

