-- ==== Sys2Proof/Machine/Flags.lean ====
section
/-! DEFINITION. The block has no flags (10_state.md R27). What it shows of its status is the STATUS
register (R32) and the status byte of a response (30_encoding.md R85; 60_exceptions.md R200). -/

namespace Sys2Proof.Machine

/-- The 2-bit code of `phase` (R20). -/
def Phase.code : Phase → BitVec 2
  | .idle => 0
  | .keyed => 1
  | .spent => 2

/-- STATUS (R32): `zext_8(phase)`, bits 1:0 the phase, bits 7:2 zero. -/
def State.status (s : State) : Byte := zext 8 s.phase.code

/-- Field `PHASE` of STATUS, bits 1:0 (R32). -/
def statusPhase (v : Byte) : BitVec 2 := v.extractLsb' 0 2

/-- The reserved bits 7:2 of STATUS (R32). -/
def statusReserved (v : Byte) : BitVec 6 := v.extractLsb' 2 6

/-- The status-byte code of a refusal kind (R200). -/
def errCode : ErrKind → Byte
  | .invalidKey => 0x01#8
  | .invalidCiphertextFormat => 0x02#8
  | .lengthMismatch => 0x03#8
  | .illegalCommand => 0x04#8
  | .notKeyed => 0x05#8
  | .emptyInput => 0x06#8
  | .operandRange => 0x07#8

/-- The status byte of a response (R85): 0x00 for `Ok`. -/
def statusByte : Response → Byte
  | .ok _ => 0x00#8
  | .err kind => errCode kind

/-- The payload of a response (R85): empty on a refusal. -/
def payloadOf : Response → List Byte
  | .ok payload => payload
  | .err _ => []

/-- A response as the host receives it (R85; log entry 17): the status byte, then the payload. -/
def responseBytes (r : Response) : List Byte := statusByte r :: payloadOf r

end Sys2Proof.Machine
end

