-- ==== Sys2Proof/Machine/Control.lean ====
section
/-! DEFINITION. The control unit: STAT and CLEAR (spec 43_control.md R170 to R172). Neither can be
refused. -/

namespace Sys2Proof.Machine

/-- STAT (R171): the STATUS byte; writes nothing. -/
def execStat (s : State) : Host.Outcome State Fault Refusal := .next (s.respond [s.status])

/-- CLEAR (R172): the reset state. -/
def execClear (s : State) : Host.Outcome State Fault Refusal := .next (s.discard.respond [])

end Sys2Proof.Machine
end

