-- ==== Sys2Proof/Machine/Dispatch.lean ====
section
/-! DEFINITION. One arm per command (spec 30_encoding.md R82). -/

namespace Sys2Proof.Machine

def exec (i : Instr) (s : State) : Host.Outcome State Fault Refusal :=
  match i with
  | .stat => Sys2Proof.Machine.execStat s
  | .clear => Sys2Proof.Machine.execClear s
  | .sched key => Sys2Proof.Machine.execSched key s
  | .gen count => Sys2Proof.Machine.execGen count s
  | .xorc data ks => Sys2Proof.Machine.execXorc data ks s
  | .crypt key data => Sys2Proof.Machine.execCrypt key data s

end Sys2Proof.Machine
end

