-- ==== Sys2Proof/Machine/Sequencer.lean ====
section
/-! DEFINITION. The sequencer: how the block takes what comes to it, one entry at a time (spec
10_state.md R29, R30; 30_encoding.md R80; 60_exceptions.md R204; 70_reset_and_hazards.md R230, R235). -/

namespace Sys2Proof.Machine

/-- A command is decoded and performed; a reserved byte is answered `IllegalCommand` (R204). A reset
puts the block in its reset state without a response, and so does a reset during a command (R230). -/
def runEvent (e : HostEvent) (s : State) : Host.Outcome State Fault Refusal :=
  match e with
  | .command r =>
    match decode r with
    | .ok i => exec i s
    | .error kind => .next (s.raise kind)
  | .reset => .next s.discard
  | .resetDuring _ => .next s.discard

/-- The next entry of `inbox` is taken and performed; with none the block is quiescent (R235). -/
def takeNext (s : State) : Host.Outcome State Fault Refusal :=
  match s.inbox with
  | [] => .next s
  | e :: rest => runEvent e { s with inbox := rest }

/-- A command put where the sequencer takes its next one (log entry 10). -/
def State.issue (s : State) (r : Request) : State := { s with inbox := .command r :: s.inbox }

end Sys2Proof.Machine
end

