-- ==== Sys2Proof/Machine/Step.lean ====
section
/-! DEFINITION. One step of the machine, and how the host places a table row's command. -/

namespace Sys2Proof.Machine

/-- One step: one command answered, one reset, or nothing when nothing has come (10_state.md R30, log
entry 7; 70_reset_and_hazards.md R235, log entry 9). -/
def step (s : State) : Host.Outcome State Fault Refusal := takeNext s

/-- `s` with the command of an opcode-table word, operands of zeros, as the next thing the block
takes (log entry 10). -/
def State.withFetchWord (s : State) (nbits w : Nat) : State := s.issue (tableRequest nbits w)

end Sys2Proof.Machine
end

