-- ==== Sys2Proof/Machine/Codec.lean ====
section
/-! DEFINITION. The HOST's side of the boundary, no part of the block (spec 44_codec_boundary.md R180 to
R189; 60_exceptions.md R203, R213): text to bytes, bytes to hex, and the pseudo-commands ENCRYPT and
DECRYPT (30_encoding.md R88) around one CRYPT command. -/

namespace Sys2Proof.Machine

/-- Text at the host: a sequence of characters; the code of a character is `Char.toNat`. -/
abbrev Text := List Char

/-- Why a host operation is a no-op (R186). `charRejected` is the model's own name for what
`CHAR_POLICY = reject` turns away (R182; log entry 13). -/
inductive HostFailure where
  /-- a check of the host's, or a refusal of the block -/
  | kind (k : ErrKind)
  /-- a character code above 255 under `CHAR_POLICY = reject` -/
  | charRejected
  /-- the block gave no response; it always gives one (R211), so nothing raises this -/
  | noResponse
  deriving DecidableEq, Repr

/-- Key and plaintext characters to bytes: one byte per character, the code truncated (R181, R182). -/
def textBytes (t : Text) : List Byte := t.map fun c => trunc8 c.toNat

/-- Bytes to characters with those codes (R185). -/
def bytesText (bs : List Byte) : Text := bs.map fun b => Char.ofNat b.toNat

/-- A text the host's policy turns away (R182). -/
def rejects (policy : Config.CharPolicy) (t : Text) : Bool :=
  match policy with
  | .truncate => false
  | .reject => t.any fun c => Nat.blt 255 c.toNat

/-- The uppercase hexadecimal digit of a 4-bit value (R183; K2). -/
def hexDigit (v : BitVec 4) : Char :=
  if v.toNat < 10 then Char.ofNat (48 + v.toNat) else Char.ofNat (55 + v.toNat)

/-- The value of a hexadecimal digit of either case, none for any other character (R184; K2). -/
def digitValue (c : Char) : Option Nat :=
  let n := c.toNat
  if 48 ≤ n ∧ n ≤ 57 then some (n - 48)
  else if 65 ≤ n ∧ n ≤ 70 then some (n - 55)
  else if 97 ≤ n ∧ n ≤ 102 then some (n - 87)
  else none

/-- A byte as two digits, high half first (R183; D18). -/
def hexByte (b : Byte) : Text := [hexDigit (b.extractLsb' 4 4), hexDigit (b.extractLsb' 0 4)]

/-- Hex encoding (R183): no separators, in sequence order. -/
def hexEncode (bs : List Byte) : Text := bs.flatMap hexByte

/-- Hex decoding (R184): each pair of digits is a byte; none if the length is odd or a character is no
hex digit. -/
def hexDecode : Text → Option (List Byte)
  | [] => some []
  | [_] => none
  | h :: l :: t =>
    match digitValue h, digitValue l, hexDecode t with
    | some vh, some vl, some bs => some (trunc8 (16 * vh + vl) :: bs)
    | _, _, _ => none

/-- What the host gets for one command it issues: the state after the block's next step and the
response the step added (30_encoding.md R80). -/
def hostCall (r : Request) (s : State) : State × Option Response :=
  match step (s.issue r) with
  | .next t => (t, t.outbox.getLast?)
  | .fault f => nomatch f
  | .refused _ => (s, none)

/-- CRYPT as the host issues it, its payload turned to text, a refusal passed on (R187, R188). -/
def hostCrypt (toText : List Byte → Text) (key data : List Byte) (s : State) :
    Except HostFailure Text × State :=
  let c := hostCall { cmd := 0x31#8, ops := { key := key, data := data } } s
  match c.2 with
  | some (.ok out) => (.ok (toText out), c.1)
  | some (.err k) => (.error (.kind k), c.1)
  | none => (.error .noResponse, c.1)

/-- ENCRYPT (R187): the host's checks, then the conversions and one CRYPT, then hex. A failed check
issues no command and leaves the block alone (R186). `CHAR_POLICY` is the default unless given (R6);
where its check stands is log entry 13. -/
def encrypt (plaintext keytext : Text) (s : State)
    (policy : Config.CharPolicy := Config.CharPolicy.default) : Except HostFailure Text × State :=
  if keytext.isEmpty then (.error (.kind .invalidKey), s)
  else if plaintext.isEmpty then (.error (.kind .emptyInput), s)
  else if rejects policy keytext || rejects policy plaintext then (.error .charRejected, s)
  else hostCrypt hexEncode (textBytes keytext) (textBytes plaintext) s

/-- DECRYPT (R188): the host's checks, hex decoding, one CRYPT, then bytes to characters; the policy as
in `encrypt`. -/
def decrypt (ciphertext keytext : Text) (s : State)
    (policy : Config.CharPolicy := Config.CharPolicy.default) : Except HostFailure Text × State :=
  if keytext.isEmpty then (.error (.kind .invalidKey), s)
  else if ciphertext.isEmpty then (.error (.kind .emptyInput), s)
  else
    match hexDecode ciphertext with
    | none => (.error (.kind .invalidCiphertextFormat), s)
    | some data =>
      if rejects policy keytext then (.error .charRejected, s)
      else hostCrypt bytesText (textBytes keytext) data s

/-- What the host shows after an operation (60_exceptions.md R213): a failure leaves in place what it
last showed. -/
def shown (before : Text) (result : Except HostFailure Text) : Text :=
  match result with
  | .ok t => t
  | .error _ => before

end Sys2Proof.Machine
end

