-- ==== Sys2Proof/Reference.lean ====
section
/-! DEFINITION. The algorithm of the source read as mathematics: the store is a function from index to
byte, and each sequence is indexed by the round (spec 40_ksa.md R113, R114; 41_prga.md R132, R133).
The machine never uses this file; the statements compare the machine with it. -/

namespace Sys2Proof.Reference

/-- A store: the byte at each index. -/
abbrev Store := Byte → Byte

/-- The store with the cells `a` and `b` exchanged (00_scope.md R8). -/
def exchange (f : Store) (a b : Byte) : Store :=
  fun x => if x = a then f b else if x = b then f a else f x

/-- Store and accumulator after `n` rounds of the key schedule, from the identity and accumulator 0
(R112, R113, R114). -/
def ksa (key : List Byte) : Nat → Store × Byte
  | 0 => (fun a => a, 0#8)
  | n + 1 =>
    let ki := BitVec.ofNat 8 n
    let kj := (ksa key n).2 + (ksa key n).1 ki + key.getD (n % key.length) 0#8
    (exchange (ksa key n).1 ki kj, kj)

/-- The permutation a key schedules (R111: 256 rounds). -/
@[irreducible] def permutation (key : List Byte) : Store := (ksa key 256).1

/-- Store and cursor `j` after `n` rounds of the generator; cursor `i` is `n` mod 256 (R132, R133). -/
def prga (f : Store) : Nat → Store × Byte
  | 0 => (f, 0#8)
  | n + 1 =>
    let i := BitVec.ofNat 8 (n + 1)
    let j := (prga f n).2 + (prga f n).1 i
    (exchange (prga f n).1 i j, j)

/-- The byte emitted by round `k + 1` (R131, R133): read after the swap. -/
def keystream (f : Store) (k : Nat) : Byte :=
  let g := (prga f (k + 1)).1
  g (g (BitVec.ofNat 8 (k + 1)) + g (prga f (k + 1)).2)

/-- The first `n` keystream bytes. -/
def keystreamBytes (f : Store) (n : Nat) : List Byte := (List.range n).map (keystream f)

end Sys2Proof.Reference
end

