-- ==== Sys2Proof/Safety.lean ====
section
/-! DEFINITION. What counts as a good state and a good step, in the terms the statements use. -/

namespace Sys2Proof.Machine

/-- Each value 0..255 appears exactly once (10_state.md R23). -/
def IsPermutation (m : List Host.Cell) : Prop := ∀ v : Byte, ∃! a : Byte, Memory.read m a = v

/-- The permutation invariant (R23): whenever `phase` is KEYED or SPENT. -/
def State.PermInv (s : State) : Prop := s.phase ≠ .idle → IsPermutation s.perm.S

/-- The store is in canonical form. -/
def State.MemInv (s : State) : Prop := Memory.wf s.perm.S = true

/-- A step ends in a next state: no fault, no refusal of the model. -/
def Completes (o : Host.Outcome State Fault Refusal) : Prop := ∃ t, o = .next t

/-- A length is within an open bound (00_scope.md R6): always, when the bound is the default `none`. -/
def InBound (bound : Option Nat) (n : Nat) : Prop := ∀ b, bound = some b → n ≤ b

/-- The response a command added is `r`, and it added no other (30_encoding.md R80, R85). -/
def Answers (s t : State) (r : Response) : Prop := t.outbox = s.outbox ++ [r]

/-- Two states a host cannot tell apart (10_state.md R25, R28, R34): the same phase, parameters,
commands to come and responses, and the same store while a permutation waits to be used. The cursors
and a store that is unspecified or spent may differ. -/
def SameView (s t : State) : Prop :=
  s.phase = t.phase ∧ s.params = t.params ∧ s.inbox = t.inbox ∧ s.outbox = t.outbox ∧
    (s.phase = .keyed → ∀ a, Memory.read s.perm.S a = Memory.read t.perm.S a)

end Sys2Proof.Machine
end

