-- ==== Sys2Proof/WellFormed.lean ====
section
/-! DEFINITION. Well-formed commands: the operand column of spec/opcode_table.json. An ill-formed
command is still a command: the block answers it with the refusal of its rule (R201, R202, R207),
so neither the decoder nor the step turns one away. -/

namespace Sys2Proof

/-- The operands are as the opcode table types them: a key of length at least 1, keystream as long
as the data, CRYPT data of length at least 1. -/
def Instr.wellFormed : Instr → Bool
  | .stat => true
  | .clear => true
  | .sched key => !key.isEmpty
  | .gen _ => true
  | .xorc data ks => data.length == ks.length
  | .crypt key data => !key.isEmpty && !data.isEmpty

/-- The same as a proposition. -/
abbrev Instr.WellFormed (i : Instr) : Prop := i.wellFormed = true

end Sys2Proof
end

