-- ==== Sys2Proof/Certificates/Slice0/Obligations.lean ====
section
/-! DEFINITION. The statements for the provers. Each docstring names the rule of spec/ it formalises; where
a clause rests on a decision the spec marks as its own (92_eei_decisions.md D<n>), on an inference it
marks as its own, or on an entry of the model's log, the docstring says so. A complete next state is
written out wherever a command changes little, so that the equation is also the command's frame. -/

open Sys2Proof Sys2Proof.Machine

/-! ## Encoding -/

/-- 30_encoding.md R82, R86 (the byte values are the spec's decision D3): the six command bytes with
any operands beside them, and the reserved bytes of vector V-DEC-2. -/
def Obligations.SpecBytesDecode : Prop :=
  (∀ o : Operands,
    decode { cmd := 0x01#8, ops := o } = .ok .stat ∧
    decode { cmd := 0x02#8, ops := o } = .ok .clear ∧
    decode { cmd := 0x10#8, ops := o } = .ok (.sched o.key) ∧
    decode { cmd := 0x20#8, ops := o } = .ok (.gen o.count) ∧
    decode { cmd := 0x30#8, ops := o } = .ok (.xorc o.data o.ks) ∧
    decode { cmd := 0x31#8, ops := o } = .ok (.crypt o.key o.data)) ∧
  ∀ o : Operands, ∀ b ∈ [0x00#8, 0x03#8, 0x0F#8, 0x11#8, 0x1F#8, 0x21#8, 0x32#8, 0x3F#8, 0x40#8,
      0x80#8, 0xFF#8],
    decode { cmd := b, ops := o } = .error .illegalCommand

/-- Decoder and encoder agree (30_encoding.md R80 to R83), both ways: every command is read back from
its request, and whatever the decoder reads has the request's byte and the request's operands. -/
def Obligations.DecodeEncodeAgree : Prop :=
  (∀ i : Instr, decode (encode i) = .ok i) ∧
  ∀ (r : Request) (i : Instr), decode r = .ok i →
    (encode i).cmd = r.cmd ∧ i = withOperands i.op r.ops

/-- 30_encoding.md R86, 60_exceptions.md R204 (decisions D32, D13): each of the 250 other bytes, with
any operands, is answered IllegalCommand and changes nothing else. -/
def Obligations.ReservedByteAnswersIllegal : Prop :=
  ∀ (s : State) (r : Request) (rest : List HostEvent),
    r.cmd ∉ [0x01#8, 0x02#8, 0x10#8, 0x20#8, 0x30#8, 0x31#8] → s.inbox = .command r :: rest →
    step s = .next { s with inbox := rest, outbox := s.outbox ++ [.err .illegalCommand] }

/-! ## The step -/

/-- A step runs the decoded command: when the next entry is a command that decodes, the step takes the
entry and is `exec` of the command (10_state.md R30, 30_encoding.md R80; `inbox` is the model's own,
log entry 2). It does so for ill-formed commands too. -/
def Obligations.StepRunsDecodedCommand : Prop :=
  ∀ (s : State) (r : Request) (rest : List HostEvent) (i : Instr),
    s.inbox = .command r :: rest → decode r = .ok i → step s = exec i { s with inbox := rest }

/-- 70_reset_and_hazards.md R230, 10_state.md R34 (decision D10; that a reset is an entry, also one during
a command, is log entry 8): a reset between commands or during one gives no response and leaves IDLE, both cursors 0 and STATUS 0x00. Nothing is said of the store. -/
def Obligations.ResetEventLeavesResetState : Prop :=
  ∀ (s : State) (e : HostEvent) (rest : List HostEvent),
    s.inbox = e :: rest → (e = .reset ∨ ∃ r, e = .resetDuring r) →
    ∃ t, step s = .next t ∧ t.phase = .idle ∧ t.perm.i = 0#8 ∧ t.perm.j = 0#8 ∧
      t.status = 0x00#8 ∧ t.outbox = s.outbox ∧ t.inbox = rest ∧ t.params = s.params

/-- 70_reset_and_hazards.md R235 (its own inference; that a step is then the identity is log entry 9):
with nothing to come no state changes. -/
def Obligations.QuiescentStepChangesNothing : Prop :=
  ∀ s : State, s.inbox = [] → step s = .next s

/-- 70_reset_and_hazards.md R249 (marked derived), 60_exceptions.md R211, 30_encoding.md R80: no step
stops, and a step adds exactly one response for a command (decoded or reserved) and none otherwise; it
takes one entry and changes no parameter. Two cases are the model's own reading: a step with nothing to
come (70_reset_and_hazards.md R235, marked derived; log entry 9) and one that takes a reset, also a reset
during a command (R230, decision D10; log entry 8). The lists themselves are log entry 2. -/
def Obligations.StepNeverStopsAndAnswersOnce : Prop :=
  ∀ s : State, ∃ t rs, step s = .next t ∧ t.outbox = s.outbox ++ rs ∧ t.inbox = s.inbox.tail ∧
    t.params = s.params ∧
    rs.length = (match s.inbox with
      | .command _ :: _ => 1
      | _ => 0)

/-- 10_state.md R34, 70_reset_and_hazards.md R230 (decision D10): after reset IDLE, cursors 0, STATUS
0x00, and the spec's default parameters (00_scope.md R6). -/
def Obligations.ResetStateIsIdle : Prop :=
  State.reset.phase = .idle ∧ State.reset.perm.i = 0#8 ∧ State.reset.perm.j = 0#8 ∧
    State.reset.status = 0x00#8 ∧ State.reset.params.keyMax = none ∧
    State.reset.params.lenMax = none

/-! ## Control commands -/

/-- 43_control.md R171 (decision D12): STAT answers one byte, 0 in IDLE, 1 in KEYED, 2 in SPENT, and
changes nothing, in every state. -/
def Obligations.StatAnswersPhase : Prop :=
  ∀ s : State,
    exec .stat s = .next { s with
      outbox := s.outbox ++ [.ok [match s.phase with
        | .idle => 0x00#8
        | .keyed => 0x01#8
        | .spent => 0x02#8]] }

/-- 10_state.md R32 (decision D12): bits 1:0 of STATUS are the phase, bits 7:2 read 0, and 3 is never
read. -/
def Obligations.StatusFields : Prop :=
  ∀ s : State, statusPhase s.status = s.phase.code ∧ statusReserved s.status = 0 ∧
    statusPhase s.status ≠ 3#2 ∧ s.status.toNat ≤ 2

/-- 43_control.md R172 (decision D11): CLEAR is accepted in every state and leaves IDLE and both cursors
0; of the store's bytes nothing is said (log entry 5). -/
def Obligations.ClearLeavesResetState : Prop :=
  ∀ s : State, ∃ t, exec .clear s = .next t ∧ t.phase = .idle ∧ t.perm.i = 0#8 ∧ t.perm.j = 0#8 ∧
    Answers s t (.ok []) ∧ t.status = 0x00#8 ∧ t.params = s.params ∧ t.inbox = s.inbox ∧
    ∀ n : Nat, exec (.gen n) t = .next { t with outbox := t.outbox ++ [.err .notKeyed] }

/-- 70_reset_and_hazards.md R230, 43_control.md R172 (decisions D10, D11): CLEAR and the reset event have
the same effect on the block. The rules give this for the phase, the cursors and what is left unspecified;
that both draw the same number of free bytes and leave the store the same ones is the model's (log entry
5): the spec leaves the store unspecified after each. -/
def Obligations.ClearActsAsReset : Prop :=
  ∀ (s u : State) (rest : List HostEvent), s.inbox = .reset :: rest → step s = .next u →
    exec .clear { s with inbox := rest } =
      .next { u with outbox := u.outbox ++ [.ok []] }

/-! ## The KeyScheduler -/

/-- 40_ksa.md R112: after KSA.FILL `S[n] = n` for every `n`; the fill is what the rounds start from, and
from then on, after every round, the store is a permutation. -/
def Obligations.FillIsIdentity : Prop :=
  (∀ a : Byte, Memory.read ksaFill a = a) ∧
  (∀ key : List Byte, (ksaRounds key 0).1 = ksaFill) ∧
  ∀ (key : List Byte) (n : Nat), IsPermutation (ksaRounds key n).1

/-- 00_scope.md R8, 20_memory.md R54 (decision D24): a swap exchanges two cells and leaves the others, and
with equal indices it leaves a canonical store as it is. -/
def Obligations.SwapExchangesCells : Prop :=
  (∀ (m : List Host.Cell) (a b : Byte),
    Memory.read (Memory.swap m a b) a = Memory.read m b ∧
    Memory.read (Memory.swap m a b) b = Memory.read m a ∧
    ∀ x, x ≠ a → x ≠ b → Memory.read (Memory.swap m a b) x = Memory.read m x) ∧
  ∀ (m : List Host.Cell) (a : Byte), Memory.wf m = true → Memory.swap m a a = m

/-- 40_ksa.md R113, 20_memory.md R51: a KSA round adds the cell and the key byte of its index to the
accumulator mod 256 and then exchanges cells `ki` and the new `kj`; no other cell changes. -/
def Obligations.KsaRoundUpdates : Prop :=
  ∀ (key : List Byte) (ki : Byte) (m : List Host.Cell) (kj : Byte) (m' : List Host.Cell)
    (kj' : Byte) (h : key ≠ []), ksaRound key ki (m, kj) = (m', kj') →
    kj'.toNat = (kj.toNat + (Memory.read m ki).toNat +
      (key[ki.toNat % key.length]'(Nat.mod_lt _ (List.length_pos_of_ne_nil h))).toNat) % 256 ∧
    Memory.read m' ki = Memory.read m kj' ∧ Memory.read m' kj' = Memory.read m ki ∧
    ∀ x, x ≠ ki → x ≠ kj' → Memory.read m' x = Memory.read m x

/-- 40_ksa.md R110 to R116. SCHED with a key of at least one byte and within KEY_MAX completes from every
state: the store becomes the key's permutation, read as mathematics in Sys2Proof/Reference.lean, both
cursors are 0, the phase is KEYED, the payload empty, and nothing else changes. That the accumulator
starts at 0 is the spec's decision D6, from general knowledge (R114; log entry 6); the cursor values are
decision D8; that the store is a list in canonical form is log entry 14. -/
def Obligations.SchedSchedulesKey : Prop :=
  ∀ (s : State) (key : List Byte), key ≠ [] → InBound s.params.keyMax key.length →
    ∃ S, exec (.sched key) s = .next { s with
        perm := { S := S, i := 0#8, j := 0#8 }
        phase := .keyed
        outbox := s.outbox ++ [.ok []] } ∧
      Memory.wf S = true ∧ ∀ a, Memory.read S a = Reference.permutation key a

/-- 40_ksa.md R117: for every key with a byte, from any two states, SCHED leaves a permutation, the same
one, and the same phase and cursors; nothing the key was is kept: the parameters, what is to come and
what was answered are as they were, but for the empty `Ok`. -/
def Obligations.SchedProperties : Prop :=
  ∀ (s₁ s₂ : State) (key : List Byte), key ≠ [] →
    InBound s₁.params.keyMax key.length → InBound s₂.params.keyMax key.length →
    ∃ t₁ t₂, exec (.sched key) s₁ = .next t₁ ∧ exec (.sched key) s₂ = .next t₂ ∧
      IsPermutation t₁.perm.S ∧ t₁.perm = t₂.perm ∧ t₁.phase = t₂.phase ∧
      Answers s₁ t₁ (.ok []) ∧ t₁.params = s₁.params ∧ t₁.inbox = s₁.inbox ∧
      t₁.freeCount = s₁.freeCount

/-- 40_ksa.md R115 (a consequence the spec marks as derived): a key written `m >= 1` times in a row
schedules the permutation of the key. -/
def Obligations.RepeatedKeySchedulesSame : Prop :=
  ∀ (key : List Byte) (m : Nat), key ≠ [] → 1 ≤ m →
    schedule (List.replicate m key).flatten = schedule key

/-- 20_memory.md R57 (marked derived): keys of at least 256 bytes that agree in their first 256 schedule
the same permutation. -/
def Obligations.LongKeyTailNeverRead : Prop :=
  ∀ key₁ key₂ : List Byte, 256 ≤ key₁.length → 256 ≤ key₂.length →
    key₁.take 256 = key₂.take 256 → schedule key₁ = schedule key₂

/-- 40_ksa.md R118 (marked derived; it rests on the accumulator's start 0, decision D6, log entry 6): while
each of the first `n` rounds has met a cell that still held its own index, the accumulator after them is
the sum mod 256 of their indices and key bytes. -/
def Obligations.FirstRoundsClosedForm : Prop :=
  ∀ (key : List Byte) (n : Nat),
    (∀ r < n, Memory.read (ksaRounds key r).1 (trunc8 r) = trunc8 r) →
    (ksaRounds key n).2 =
      trunc8 (((List.range n).map fun r => r + (keyByte key (trunc8 r)).toNat).sum)

/-! ## The KeystreamGenerator -/

/-- 10_state.md R27: bytes add mod 256, and every update of the two cursors by a round is reduced so; the
rule's two examples. -/
def Obligations.CursorsWrap : Prop :=
  (∀ a b : Byte, (add8 a b).toNat = (a.toNat + b.toNat) % 256) ∧
  inc8 255#8 = 0#8 ∧ add8 200#8 100#8 = 44#8 ∧
  ∀ p : PermutationState,
    (prgaAdvance p).i.toNat = (p.i.toNat + 1) % 256 ∧
    (prgaAdvance p).j.toNat = (p.j.toNat + (Memory.read p.S (inc8 p.i)).toNat) % 256

/-- 41_prga.md R132: the start zeroes both cursors and leaves the permutation; every admitted GEN runs its
rounds from the start of the store it finds, every admitted CRYPT from the start of the store it has just
scheduled, and so both do the same whatever the cursors held. -/
def Obligations.StartZeroesCursors : Prop :=
  (∀ p : PermutationState, prgaStart p = { S := p.S, i := 0#8, j := 0#8 }) ∧
  (∀ (s : State) (n : Nat), s.phase = .keyed → InBound s.params.lenMax n →
    exec (.gen n) s = .next { s with
      perm := (prgaRun n (prgaStart s.perm)).1
      phase := .spent
      outbox := s.outbox ++ [.ok (prgaRun n (prgaStart s.perm)).2] }) ∧
  (∀ (s : State) (key data : List Byte), key ≠ [] → data ≠ [] →
    InBound s.params.keyMax key.length → InBound s.params.lenMax data.length →
    exec (.crypt key data) s = .next { s with
      perm := (cryptRun data (prgaStart (schedule key))).1
      phase := .spent
      outbox := s.outbox ++ [.ok (cryptRun data (prgaStart (schedule key))).2] }) ∧
  (∀ (s : State) (n : Nat) (x y : Byte), s.phase = .keyed → InBound s.params.lenMax n →
    exec (.gen n) { s with perm := { s.perm with i := x, j := y } } = exec (.gen n) s) ∧
  ∀ (s : State) (key data : List Byte) (x y : Byte), key ≠ [] → data ≠ [] →
    InBound s.params.keyMax key.length → InBound s.params.lenMax data.length →
    exec (.crypt key data) { s with perm := { s.perm with i := x, j := y } } =
      exec (.crypt key data) s

/-- 41_prga.md R133, 20_memory.md R55: a round increments `i`, adds the cell at the new `i` to `j`,
exchanges the two cells, and emits the cell at the sum of the two as they stand after the exchange; no
other cell changes. -/
def Obligations.PrgaRoundUpdates : Prop :=
  ∀ (p q : PermutationState), prgaAdvance p = q →
    q.i = p.i + 1#8 ∧ q.j = p.j + Memory.read p.S q.i ∧
    Memory.read q.S q.i = Memory.read p.S q.j ∧ Memory.read q.S q.j = Memory.read p.S q.i ∧
    (∀ x, x ≠ q.i → x ≠ q.j → Memory.read q.S x = Memory.read p.S x) ∧
    prgaEmit q = Memory.read q.S (Memory.read p.S q.i + Memory.read p.S q.j)

/-- 41_prga.md R137 (marked derived): a round whose two indices meet leaves every cell and emits the cell
at twice its value. -/
def Obligations.SelfSwapRound : Prop :=
  ∀ (p q : PermutationState), prgaAdvance p = q → q.i = q.j →
    (∀ x, Memory.read q.S x = Memory.read p.S x) ∧
    prgaEmit q = Memory.read p.S (Memory.read p.S q.i + Memory.read p.S q.i)

/-- 41_prga.md R135, with the rounds of R131 and R133 read as mathematics in Sys2Proof/Reference.lean: GEN
in KEYED and within LEN_MAX completes; the payload is the `count` keystream bytes of the store, the
cursors and the store are as the last round left them, the phase is SPENT, and nothing else changes. -/
def Obligations.GenGeneratesKeystream : Prop :=
  ∀ (s : State) (n : Nat), s.phase = .keyed → InBound s.params.lenMax n →
    ∃ (S : List Host.Cell) (ks : List Byte),
      exec (.gen n) s = .next { s with
        perm := { S := S, i := BitVec.ofNat 8 n, j := (Reference.prga (Memory.read s.perm.S) n).2 }
        phase := .spent
        outbox := s.outbox ++ [.ok ks] } ∧
      ks = Reference.keystreamBytes (Memory.read s.perm.S) n ∧ ks.length = n ∧
      (∀ a, Memory.read S a = (Reference.prga (Memory.read s.perm.S) n).1 a)

/-- 41_prga.md R134 (that the phase becomes SPENT is decision D7): GEN of nothing answers nothing, zeroes
the cursors, leaves the store as it is and spends the permutation. -/
def Obligations.GenZeroCount : Prop :=
  ∀ s : State, s.phase = .keyed →
    exec (.gen 0) s = .next { s with
      perm := { S := s.perm.S, i := 0#8, j := 0#8 }
      phase := .spent
      outbox := s.outbox ++ [.ok []] }

/-- 41_prga.md R138, 60_exceptions.md R205 (decisions D7, D13): GEN is answered NotKeyed and nothing else
changes exactly when the phase is not KEYED, and after any GEN the next one is. -/
def Obligations.OneGenerationPerSchedule : Prop :=
  (∀ (s : State) (n : Nat),
    exec (.gen n) s = .next { s with outbox := s.outbox ++ [.err .notKeyed] } ↔
      s.phase ≠ .keyed) ∧
  ∀ (s t : State) (n m : Nat) (ks : List Byte), exec (.gen n) s = .next t →
    Answers s t (.ok ks) →
    exec (.gen m) t = .next { t with outbox := t.outbox ++ [.err .notKeyed] }

/-- 41_prga.md R139 (its prefix property is marked derived): for `m <= n`, GEN of `m` answers the first
`m` bytes of what GEN of `n` answers from a state with the same store. -/
def Obligations.GenPrefixProperty : Prop :=
  ∀ (s u : State) (m n : Nat), s.phase = .keyed → u.phase = .keyed → m ≤ n →
    (∀ a, Memory.read s.perm.S a = Memory.read u.perm.S a) →
    InBound s.params.lenMax n → InBound u.params.lenMax m →
    ∃ t v ks, exec (.gen n) s = .next t ∧ Answers s t (.ok ks) ∧
      exec (.gen m) u = .next v ∧ Answers u v (.ok (ks.take m))

/-- 41_prga.md R136 (marked derived): after an admitted GEN, `i` is `count` mod 256, and `j` is the sum mod
256 of the cells that were added to it, one for each round. -/
def Obligations.CursorsAfterGen : Prop :=
  ∀ (s : State) (n : Nat), s.phase = .keyed → InBound s.params.lenMax n →
    ∃ t, exec (.gen n) s = .next t ∧ t.perm.i.toNat = n % 256 ∧
      t.perm.j.toNat = ((List.range n).map fun k =>
        ((Reference.prga (Memory.read s.perm.S) k).1 (BitVec.ofNat 8 (k + 1))).toNat).sum % 256

/-! ## The CipherEngine -/

/-- 42_cipher_engine.md R150: XORC has byte 0x30, is accepted in every phase and writes no state; it
answers LengthMismatch when the lengths differ, else OperandRange beyond LEN_MAX, else the bytes
`data[k] xor ks[k]`; the rule's example. -/
def Obligations.XorcCombines : Prop :=
  (∀ data ks : List Byte, (encode (.xorc data ks)).cmd = 0x30#8) ∧
  (∀ (s : State) (data ks : List Byte), data.length = ks.length →
    InBound s.params.lenMax data.length →
    ∃ out : List Byte, exec (.xorc data ks) s =
        .next { s with outbox := s.outbox ++ [.ok out] } ∧
      out.length = data.length ∧
      ∀ (k : Nat) (d b : Byte), data[k]? = some d → ks[k]? = some b → out[k]? = some (d ^^^ b)) ∧
  (∀ (s : State) (data ks : List Byte), data.length ≠ ks.length →
    exec (.xorc data ks) s = .next { s with outbox := s.outbox ++ [.err .lengthMismatch] }) ∧
  (∀ (s : State) (data ks : List Byte), data.length = ks.length →
    ¬ InBound s.params.lenMax data.length →
    exec (.xorc data ks) s = .next { s with outbox := s.outbox ++ [.err .operandRange] }) ∧
  ∀ s : State, InBound s.params.lenMax 1 →
    exec (.xorc [0x41#8] [0x25#8]) s = .next { s with outbox := s.outbox ++ [.ok [0x64#8]] }

/-- 42_cipher_engine.md R153: combining is its own inverse, on bytes and as two XORC commands. -/
def Obligations.XorcInvolution : Prop :=
  (∀ d b : Byte, xor8 (xor8 d b) b = d) ∧
  ∀ (s : State) (data ks : List Byte), data.length = ks.length →
    InBound s.params.lenMax data.length →
    ∃ t u out, exec (.xorc data ks) s = .next t ∧ Answers s t (.ok out) ∧
      exec (.xorc out ks) t = .next u ∧ Answers t u (.ok data)

/-- 42_cipher_engine.md R154: CRYPT with non-empty operands within bounds completes from every state; its
payload is the data combined with the key's keystream, the store and cursors are as the generator's last
round left them, the phase is SPENT, and nothing else changes. The key schedule's start value is the
spec's decision D6 (log entry 6); that the store is a list in canonical form is log entry 14. -/
def Obligations.CryptEncrypts : Prop :=
  ∀ (s : State) (key data : List Byte), key ≠ [] → data ≠ [] →
    InBound s.params.keyMax key.length → InBound s.params.lenMax data.length →
    ∃ S : List Host.Cell, exec (.crypt key data) s = .next { s with
        perm := { S := S
                  i := BitVec.ofNat 8 data.length
                  j := (Reference.prga (Reference.permutation key) data.length).2 }
        phase := .spent
        outbox := s.outbox ++ [.ok (List.zipWith (· ^^^ ·) data
          (Reference.keystreamBytes (Reference.permutation key) data.length))] } ∧
      Memory.wf S = true ∧
      ∀ a, Memory.read S a = (Reference.prga (Reference.permutation key) data.length).1 a

/-- 42_cipher_engine.md R155 (the equality is marked derived): CRYPT answers what SCHED, GEN and XORC issued
in a row answer, and ends in the same state of the block. -/
def Obligations.CryptIsSchedGenXorc : Prop :=
  ∀ (s : State) (key data : List Byte), key ≠ [] → data ≠ [] →
    InBound s.params.keyMax key.length → InBound s.params.lenMax data.length →
    ∃ t₁ t₂ t₃ u ks out,
      exec (.sched key) s = .next t₁ ∧ Answers s t₁ (.ok []) ∧
      exec (.gen data.length) t₁ = .next t₂ ∧ Answers t₁ t₂ (.ok ks) ∧
      exec (.xorc data ks) t₂ = .next t₃ ∧ Answers t₂ t₃ (.ok out) ∧
      exec (.crypt key data) s = .next u ∧ Answers s u (.ok out) ∧
      u.perm = t₃.perm ∧ u.phase = t₃.phase

/-- 42_cipher_engine.md R158: CRYPT with the same key on what CRYPT answered gives the data back, from
whatever states the two are issued. -/
def Obligations.CryptRoundTrip : Prop :=
  ∀ (s₁ s₂ : State) (key data : List Byte), key ≠ [] → data ≠ [] →
    InBound s₁.params.keyMax key.length → InBound s₁.params.lenMax data.length →
    InBound s₂.params.keyMax key.length → InBound s₂.params.lenMax data.length →
    ∃ t₁ t₂ out, exec (.crypt key data) s₁ = .next t₁ ∧ Answers s₁ t₁ (.ok out) ∧
      exec (.crypt key out) s₂ = .next t₂ ∧ Answers s₂ t₂ (.ok data)

/-- 42_cipher_engine.md R159: what CRYPT and XORC answer is as long as the data. -/
def Obligations.LengthPreserved : Prop :=
  (∀ (s t : State) (key data out : List Byte), exec (.crypt key data) s = .next t →
    Answers s t (.ok out) → out.length = data.length) ∧
  ∀ (s t : State) (data ks out : List Byte), exec (.xorc data ks) s = .next t →
    Answers s t (.ok out) → out.length = data.length

/-- 42_cipher_engine.md R160 (marked derived): under one key, the outputs for two data operands of one
length differ exactly as the data do. -/
def Obligations.KeystreamIndependence : Prop :=
  ∀ (s₁ s₂ t₁ t₂ : State) (key d₁ d₂ o₁ o₂ : List Byte), d₁.length = d₂.length →
    exec (.crypt key d₁) s₁ = .next t₁ → Answers s₁ t₁ (.ok o₁) →
    exec (.crypt key d₂) s₂ = .next t₂ → Answers s₂ t₂ (.ok o₂) →
    List.zipWith (· ^^^ ·) o₁ o₂ = List.zipWith (· ^^^ ·) d₁ d₂

/-- 42_cipher_engine.md R157: CRYPT answers the same from any two states with the same parameters, and when
it answers `Ok` it leaves the same state of the block. -/
def Obligations.CryptIgnoresPriorState : Prop :=
  ∀ (s₁ s₂ : State) (key data : List Byte), s₁.params = s₂.params →
    ∃ t₁ t₂ r, exec (.crypt key data) s₁ = .next t₁ ∧ exec (.crypt key data) s₂ = .next t₂ ∧
      Answers s₁ t₁ r ∧ Answers s₂ t₂ r ∧
      ∀ out, r = .ok out → t₁.perm = t₂.perm ∧ t₁.phase = t₂.phase

/-! ## Refusals -/

/-- 60_exceptions.md R201: InvalidKey is the answer of exactly SCHED and CRYPT with an empty key, whatever
else holds, and no key of a byte or more within KEY_MAX is refused, whatever its bytes: SCHED answers `Ok`
to it, and so does CRYPT when the data is acceptable. -/
def Obligations.EmptyKeyRefused : Prop :=
  (∀ (s t : State) (i : Instr), exec i s = .next t →
    (Answers s t (.err .invalidKey) ↔ i = .sched [] ∨ ∃ data, i = .crypt [] data)) ∧
  (∀ s : State, exec (.sched []) s =
    .next { s with outbox := s.outbox ++ [.err .invalidKey] }) ∧
  (∀ (s : State) (data : List Byte), exec (.crypt [] data) s =
    .next { s with outbox := s.outbox ++ [.err .invalidKey] }) ∧
  (∀ (s : State) (key : List Byte), key ≠ [] → InBound s.params.keyMax key.length →
    ∃ t, exec (.sched key) s = .next t ∧ Answers s t (.ok [])) ∧
  ∀ (s : State) (key data : List Byte), key ≠ [] → data ≠ [] →
    InBound s.params.keyMax key.length → InBound s.params.lenMax data.length →
    ∃ t out, exec (.crypt key data) s = .next t ∧ Answers s t (.ok out)

/-- 60_exceptions.md R202: XORC with operands of different lengths is answered LengthMismatch, with
nothing cut short and nothing changed; no other command gives that answer, CRYPT among them. -/
def Obligations.LengthMismatchOnlyFromXorc : Prop :=
  (∀ (s : State) (data ks : List Byte), data.length ≠ ks.length →
    exec (.xorc data ks) s = .next { s with outbox := s.outbox ++ [.err .lengthMismatch] }) ∧
  ∀ (s t : State) (i : Instr), exec i s = .next t →
    (Answers s t (.err .lengthMismatch) ↔
      ∃ data ks, i = .xorc data ks ∧ data.length ≠ ks.length)

/-- 60_exceptions.md R207 (decisions D16, D13), R209 (D14): EmptyInput is the answer of exactly CRYPT with
a key and no data. -/
def Obligations.EmptyDataRefused : Prop :=
  ∀ (s t : State) (i : Instr), exec i s = .next t →
    (Answers s t (.err .emptyInput) ↔ ∃ key, key ≠ [] ∧ i = .crypt key [])

/-- 60_exceptions.md R209, R206 (decisions D14, D4): the first check that fails is the one reported, and
nothing else changes. The decoder turns a reserved byte away whatever its operands; then come each
command's checks, in the order of its pseudocode: a first check that fails is reported whatever the later
ones would find (an empty key beside empty or over-long data, GEN outside KEYED with any count, XORC of
different lengths whatever LEN_MAX is), and a later one only when those before it pass. -/
def Obligations.ChecksInOrder : Prop :=
  (∀ r : Request, r.cmd ∉ [0x01#8, 0x02#8, 0x10#8, 0x20#8, 0x30#8, 0x31#8] →
    decode r = .error .illegalCommand) ∧
  ∀ (s : State) (key data ks : List Byte) (n : Nat),
    exec (.sched []) s = .next { s with outbox := s.outbox ++ [.err .invalidKey] } ∧
    (key ≠ [] → ¬ InBound s.params.keyMax key.length →
      exec (.sched key) s = .next { s with outbox := s.outbox ++ [.err .operandRange] }) ∧
    (s.phase ≠ .keyed →
      exec (.gen n) s = .next { s with outbox := s.outbox ++ [.err .notKeyed] }) ∧
    (s.phase = .keyed → ¬ InBound s.params.lenMax n →
      exec (.gen n) s = .next { s with outbox := s.outbox ++ [.err .operandRange] }) ∧
    (data.length ≠ ks.length →
      exec (.xorc data ks) s = .next { s with outbox := s.outbox ++ [.err .lengthMismatch] }) ∧
    (data.length = ks.length → ¬ InBound s.params.lenMax data.length →
      exec (.xorc data ks) s = .next { s with outbox := s.outbox ++ [.err .operandRange] }) ∧
    exec (.crypt [] data) s = .next { s with outbox := s.outbox ++ [.err .invalidKey] } ∧
    (key ≠ [] → exec (.crypt key []) s =
      .next { s with outbox := s.outbox ++ [.err .emptyInput] }) ∧
    (key ≠ [] → data ≠ [] →
      ¬ (InBound s.params.keyMax key.length ∧ InBound s.params.lenMax data.length) →
      exec (.crypt key data) s = .next { s with outbox := s.outbox ++ [.err .operandRange] })

/-- 60_exceptions.md R206 (decision D4), 00_scope.md R6: with the default parameters no command is ever
answered OperandRange. -/
def Obligations.NoRangeRefusalAtDefaults : Prop :=
  ∀ (s t : State) (i : Instr), s.params = Config.Params.default → exec i s = .next t →
    ¬ Answers s t (.err .operandRange)

/-- 60_exceptions.md R208 (decisions D15, D5): after a refusal every bit of the state is what it was but
for the one response, and that response is the status byte alone. -/
def Obligations.RefusalChangesNothing : Prop :=
  (∀ (s t : State) (i : Instr) (k : ErrKind), exec i s = .next t → Answers s t (.err k) →
    t = { s with outbox := s.outbox ++ [.err k] }) ∧
  ∀ k : ErrKind, responseBytes (.err k) = [errCode k] ∧ errCode k ≠ 0x00#8

/-- 60_exceptions.md R211: once its checks pass a command runs to its end and answers `Ok`. The checks of
each command are written out. -/
def Obligations.AdmittedCommandAnswersOk : Prop :=
  ∀ (s : State) (i : Instr),
    (match i with
      | .stat => True
      | .clear => True
      | .sched key => key ≠ [] ∧ InBound s.params.keyMax key.length
      | .gen n => s.phase = .keyed ∧ InBound s.params.lenMax n
      | .xorc data ks => data.length = ks.length ∧ InBound s.params.lenMax data.length
      | .crypt key data => key ≠ [] ∧ data ≠ [] ∧ InBound s.params.keyMax key.length ∧
          InBound s.params.lenMax data.length) →
    ∃ t payload, exec i s = .next t ∧ Answers s t (.ok payload)

/-- 60_exceptions.md R200 (decision D13), 30_encoding.md R85 (decision D5): the codes, no two alike; on
the way to the host an `Ok` is 0x00 and then its whole payload, an `Err` its code and nothing more; the
block never answers InvalidCiphertextFormat (R203) and no command itself answers IllegalCommand. That the
response is kept typed and its bytes are computed from it is log entry 17. -/
def Obligations.KindsAndCodes : Prop :=
  (errCode .invalidKey = 0x01#8 ∧ errCode .invalidCiphertextFormat = 0x02#8 ∧
    errCode .lengthMismatch = 0x03#8 ∧ errCode .illegalCommand = 0x04#8 ∧
    errCode .notKeyed = 0x05#8 ∧ errCode .emptyInput = 0x06#8 ∧ errCode .operandRange = 0x07#8) ∧
  (∀ p, responseBytes (.ok p) = 0x00#8 :: p) ∧
  (∀ k, responseBytes (.err k) = [errCode k]) ∧
  (∀ (s t : State), step s = .next t →
    t.outbox ≠ s.outbox ++ [.err .invalidCiphertextFormat]) ∧
  ∀ (s t : State) (i : Instr), exec i s = .next t → ¬ Answers s t (.err .illegalCommand)

/-! ## The whole machine -/

/-- 10_state.md R29 (decisions D7, D17): the phase after each command that answers `Ok`, the phase kept by
each that answers `Err`, and GEN answers `Ok` in KEYED only. -/
def Obligations.PhaseTable : Prop :=
  ∀ (s t : State) (i : Instr), exec i s = .next t →
    (∀ payload, Answers s t (.ok payload) →
      t.phase = (match i with
        | .stat => s.phase
        | .clear => .idle
        | .sched _ => .keyed
        | .gen _ => .spent
        | .xorc _ _ => s.phase
        | .crypt _ _ => .spent) ∧
      ∀ n, i = .gen n → s.phase = .keyed) ∧
    ∀ k, Answers s t (.err k) → t.phase = s.phase

/-- The frame of all six commands (10_state.md R20, R24; 20_memory.md R56, R59; 00_scope.md R6): no command
changes a parameter, what is to come, or a response already given; STAT and XORC change no register and no
cell; only CLEAR draws free bytes (log entry 5). -/
def Obligations.CommandFrame : Prop :=
  ∀ (s t : State) (i : Instr), exec i s = .next t →
    t.params = s.params ∧ t.inbox = s.inbox ∧ (∃ r, Answers s t r) ∧
    (i ≠ .clear → t.freeCount = s.freeCount) ∧
    ((i = .stat ∨ ∃ data ks, i = .xorc data ks) →
      t.phase = s.phase ∧ t.perm.i = s.perm.i ∧ t.perm.j = s.perm.j ∧
      ∀ a, Memory.read t.perm.S a = Memory.read s.perm.S a)

/-- 10_state.md R23: whenever the phase is KEYED or SPENT the store is a permutation of 0..255. Every step
keeps it; inside SCHED it holds from the fill on and inside GEN after every round; and every SCHED that
answers `Ok` leaves one, for every non-empty key. -/
def Obligations.PermutationInvariantKept : Prop :=
  (∀ s t : State, s.PermInv → step s = .next t → t.PermInv) ∧
  (∀ (key : List Byte) (n : Nat), IsPermutation (ksaRounds key n).1) ∧
  (∀ p : PermutationState, IsPermutation p.S → IsPermutation (prgaAdvance p).S) ∧
  ∀ (s : State) (key : List Byte), key ≠ [] → InBound s.params.keyMax key.length →
    ∃ t, exec (.sched key) s = .next t ∧ IsPermutation t.perm.S

/-- The store stays in its canonical form (the form is the model's own, log entry 14): indices strictly
rising and below 256 (10_state.md R22), no entry equal to what an unlisted cell reads as. -/
def Obligations.CanonicalStoreKept : Prop :=
  ∀ s t : State, s.MemInv → step s = .next t → t.MemInv

/-- Both invariants hold at reset: the one of 10_state.md R23 because nobody holds a permutation then
(R34, decision D10); the canonical form by the model's own choices, that the store at reset lists nothing
(log entry 4) and what the form is (log entry 14). -/
def Obligations.ResetMeetsInvariants : Prop := State.reset.PermInv ∧ State.reset.MemInv

/-- 10_state.md R34, R28, R25 (decisions D10, D8, D23): what a host cannot see never shows. Two states alike
in phase, parameters, commands to come and responses, and in the store while a permutation waits, give the
same responses and stay alike at every step, whatever the cursors and an unspecified or spent store hold. -/
def Obligations.HiddenStateNeverShows : Prop :=
  ∀ s₁ s₂ t₁ t₂ : State, SameView s₁ s₂ → step s₁ = .next t₁ → step s₂ = .next t₂ →
    SameView t₁ t₂

/-! ## The host's side of the boundary -/

/-- 44_codec_boundary.md R184: hex decoding accepts exactly the texts of even length made of hex digits of
either case, and byte `k` is 16 times the value of digit `2k` plus that of digit `2k + 1`. -/
def Obligations.HexDecoding : Prop :=
  (∀ t : Text, (hexDecode t).isSome ↔ t.length % 2 = 0 ∧ ∀ c ∈ t, (digitValue c).isSome) ∧
  (∀ c : Char, ∀ v : Nat, digitValue c = some v ↔
    ('0' ≤ c ∧ c ≤ '9' ∧ v + 48 = c.toNat) ∨ ('A' ≤ c ∧ c ≤ 'F' ∧ v + 55 = c.toNat) ∨
      ('a' ≤ c ∧ c ≤ 'f' ∧ v + 87 = c.toNat)) ∧
  ∀ (t : Text) (bs : List Byte), hexDecode t = some bs → t.length = 2 * bs.length ∧
    ∀ (k : Nat) (h l : Char) (vh vl : Nat), t[2 * k]? = some h → t[2 * k + 1]? = some l →
      digitValue h = some vh → digitValue l = some vl →
      bs[k]? = some (BitVec.ofNat 8 (16 * vh + vl))

/-- 44_codec_boundary.md R183 and R184 (the digit order is decision D18): encoding doubles the length, uses
upper-case digits only, and decoding gives the bytes back. -/
def Obligations.HexRoundTrip : Prop :=
  ∀ bs : List Byte, (hexEncode bs).length = 2 * bs.length ∧
    (∀ c ∈ hexEncode bs, ('0' ≤ c ∧ c ≤ '9') ∨ ('A' ≤ c ∧ c ≤ 'F')) ∧
    hexDecode (hexEncode bs) = some bs

/-- 44_codec_boundary.md R189: for non-empty plaintext of character codes at most 255 and a non-empty key the
host's policy lets through, DECRYPT of what ENCRYPT returned returns the plaintext, and the ciphertext has
two characters for each of the plaintext's; the rule's scenario is one case. -/
def Obligations.EncryptDecryptRoundTrip : Prop :=
  ∀ (policy : Config.CharPolicy) (s₁ s₂ : State) (plaintext keytext : Text),
    plaintext ≠ [] → keytext ≠ [] → (∀ c ∈ plaintext, c.toNat ≤ 255) →
    rejects policy keytext = false →
    InBound s₁.params.keyMax keytext.length → InBound s₁.params.lenMax plaintext.length →
    InBound s₂.params.keyMax keytext.length → InBound s₂.params.lenMax plaintext.length →
    ∃ ciphertext, (encrypt plaintext keytext s₁ policy).1 = .ok ciphertext ∧
      ciphertext.length = 2 * plaintext.length ∧
      (decrypt ciphertext keytext s₂ policy).1 = .ok plaintext

/-- 44_codec_boundary.md R186 to R188: a host check that fails issues no command: the block's state is
untouched and the failure has its kind. The order among key, emptiness and format is decision D14; that
these come before the check of CHAR_POLICY, so that they are reported under `reject` too beside a
character it turns away, is the model's choice (log entry 13). -/
def Obligations.HostChecksComeFirst : Prop :=
  ∀ (policy : Config.CharPolicy) (s : State) (text keytext : Text),
    encrypt text [] s policy = (.error (.kind .invalidKey), s) ∧
    decrypt text [] s policy = (.error (.kind .invalidKey), s) ∧
    (keytext ≠ [] → encrypt [] keytext s policy = (.error (.kind .emptyInput), s) ∧
      decrypt [] keytext s policy = (.error (.kind .emptyInput), s)) ∧
    (keytext ≠ [] → text ≠ [] → hexDecode text = none →
      decrypt text keytext s policy = (.error (.kind .invalidCiphertextFormat), s))

/-- 44_codec_boundary.md R187, R188: with the operands the checks let through and the default policy
(decision D22), ENCRYPT is the conversions, one CRYPT and hex encoding, and DECRYPT hex decoding, one
CRYPT and the characters of those codes; the block is left as that CRYPT leaves it. That the host issues
the command as one step of the model is log entry 13. -/
def Obligations.HostOperationsExpand : Prop :=
  (∀ (s : State) (plaintext keytext : Text), plaintext ≠ [] → keytext ≠ [] →
    InBound s.params.keyMax keytext.length → InBound s.params.lenMax plaintext.length →
    ∃ t out, exec (.crypt (textBytes keytext) (textBytes plaintext)) s = .next t ∧
      Answers s t (.ok out) ∧ encrypt plaintext keytext s = (.ok (hexEncode out), t)) ∧
  ∀ (s : State) (ciphertext keytext : Text) (data : List Byte), ciphertext ≠ [] → keytext ≠ [] →
    hexDecode ciphertext = some data →
    InBound s.params.keyMax keytext.length → InBound s.params.lenMax data.length →
    ∃ t out, exec (.crypt (textBytes keytext) data) s = .next t ∧ Answers s t (.ok out) ∧
      decrypt ciphertext keytext s = (.ok (bytesText out), t)

/-- 44_codec_boundary.md R181, R182, 00_scope.md R6 (decision D22): the default of CHAR_POLICY is to
truncate, one byte a character, its code mod 256, and then no text is turned away for its characters;
with `reject` a code above 255, in the plaintext or the key, makes the operation a no-op with no command
issued. The failure's name and the place of that check, after the others, are the model's choice (log
entry 13). -/
def Obligations.CharPolicyGoverns : Prop :=
  Config.CharPolicy.default = .truncate ∧
  (∀ t : Text, (textBytes t).length = t.length ∧
    ∀ (k : Nat) (c : Char), t[k]? = some c →
      ∃ b, (textBytes t)[k]? = some b ∧ b.toNat = c.toNat % 256) ∧
  (∀ (s : State) (text keytext : Text),
    (encrypt text keytext s).1 ≠ .error .charRejected ∧
      (decrypt text keytext s).1 ≠ .error .charRejected) ∧
  (∀ (s : State) (plaintext keytext : Text), plaintext ≠ [] → keytext ≠ [] →
    (∃ c ∈ keytext ++ plaintext, 255 < c.toNat) →
    encrypt plaintext keytext s .reject = (.error .charRejected, s)) ∧
  ∀ (s : State) (ciphertext keytext : Text), ciphertext ≠ [] →
    hexDecode ciphertext ≠ none → (∃ c ∈ keytext, 255 < c.toNat) →
    decrypt ciphertext keytext s .reject = (.error .charRejected, s)
end

