-- ==== Sys2Proof/Laws/Memory.lean ====
section
/-! SUPPORT. The laws of the store: a read after a write, that every operation keeps the canonical form,
and that two canonical stores with the same bytes are the same list. Later proofs cite these and never
unfold the list operations. -/

namespace Sys2Proof.Laws

open Sys2Proof.Machine

/-! ## What an operation leaves to read -/

@[simp] theorem read_nil (a : Byte) : Memory.read [] a = unlistedByte := rfl

theorem beq_eq_decide (a b : Nat) : Nat.beq a b = decide (a = b) := by
  rw [Bool.eq_iff_iff, decide_eq_true_iff]
  exact ⟨Nat.eq_of_beq_eq_true, fun h => h ▸ Nat.beq_refl a⟩

theorem read_cons (c : Host.Cell) (t : List Host.Cell) (a : Byte) :
    Memory.read (c :: t) a = if c.1 = a.toNat then c.2 else Memory.read t a := by
  simp [Memory.read, beq_eq_decide, Bool.cond_decide]

theorem erase_cons (a : Nat) (c : Host.Cell) (t : List Host.Cell) :
    Memory.erase a (c :: t) = if c.1 = a then Memory.erase a t else c :: Memory.erase a t := by
  simp [Memory.erase, beq_eq_decide, Bool.cond_decide]

theorem insert_cons (a : Nat) (v : Byte) (c : Host.Cell) (t : List Host.Cell) :
    Memory.insert a v (c :: t) =
      if a < c.1 then (a, v) :: c :: t else c :: Memory.insert a v t := by
  by_cases h : a < c.1
  · simp [Memory.insert, Nat.blt_eq.mpr h, h]
  · have hb : Nat.blt a c.1 = false := by simpa [← Nat.blt_eq] using h
    simp [Memory.insert, hb, h]

theorem write_eq (m : List Host.Cell) (a v : Byte) :
    Memory.write m a v =
      if v = unlistedByte then Memory.erase a.toNat m
      else Memory.insert a.toNat v (Memory.erase a.toNat m) := by
  simp [Memory.write, cond_eq_ite]

theorem entry_eq (n : Nat) (v : Byte) :
    Memory.entry n v = if v = unlistedByte then none else some (n, v) := by
  simp [Memory.entry, cond_eq_ite]

theorem read_erase_same (m : List Host.Cell) (a : Byte) :
    Memory.read (Memory.erase a.toNat m) a = unlistedByte := by
  induction m with
  | nil => rfl
  | cons c t ih =>
    rw [erase_cons]
    split
    · exact ih
    · next h => rw [read_cons, if_neg h, ih]

theorem read_erase_other (m : List Host.Cell) {a b : Byte} (hab : b ≠ a) :
    Memory.read (Memory.erase a.toNat m) b = Memory.read m b := by
  have hn : a.toNat ≠ b.toNat := fun h => hab (BitVec.eq_of_toNat_eq h.symm)
  induction m with
  | nil => rfl
  | cons c t ih =>
    rw [erase_cons]
    split
    · next h => rw [ih, read_cons, if_neg (h ▸ hn)]
    · rw [read_cons, read_cons, ih]

theorem not_mem_erase (a : Nat) (m : List Host.Cell) : ∀ c ∈ Memory.erase a m, c.1 ≠ a := by
  induction m with
  | nil => simp [Memory.erase]
  | cons c t ih =>
    rw [erase_cons]
    split
    · exact ih
    · next h => exact List.forall_mem_cons.2 ⟨h, ih⟩

theorem read_insert_same (m : List Host.Cell) (a v : Byte) (he : ∀ c ∈ m, c.1 ≠ a.toNat) :
    Memory.read (Memory.insert a.toNat v m) a = v := by
  induction m with
  | nil => simp [Memory.insert, read_cons]
  | cons c t ih =>
    rw [List.forall_mem_cons] at he
    rw [insert_cons]
    split
    · simp [read_cons]
    · rw [read_cons, if_neg he.1, ih he.2]

theorem read_insert_other (m : List Host.Cell) {a b : Byte} (v : Byte) (hab : b ≠ a) :
    Memory.read (Memory.insert a.toNat v m) b = Memory.read m b := by
  have hn : a.toNat ≠ b.toNat := fun h => hab (BitVec.eq_of_toNat_eq h.symm)
  induction m with
  | nil => simp [Memory.insert, read_cons, hn]
  | cons c t ih =>
    rw [insert_cons]
    split
    · rw [read_cons, if_neg hn]
    · rw [read_cons, read_cons, ih]

/-- ALL A WRITE DOES: the cell holds the value, every other cell what it held (20_memory.md R54). -/
@[simp] theorem read_write (m : List Host.Cell) (a v b : Byte) :
    Memory.read (Memory.write m a v) b = if b = a then v else Memory.read m b := by
  rw [write_eq]
  by_cases hb : b = a
  · subst hb
    split
    · next hv => rw [read_erase_same, if_pos rfl, hv]
    · rw [read_insert_same _ _ _ (not_mem_erase _ m), if_pos rfl]
  · rw [if_neg hb]
    split
    · exact read_erase_other m hb
    · rw [read_insert_other _ v hb, read_erase_other m hb]

/-- ALL A SWAP DOES (20_memory.md R54): the two cells exchanged, every other cell what it held. -/
@[simp] theorem read_swap (m : List Host.Cell) (a b x : Byte) :
    Memory.read (Memory.swap m a b) x =
      if x = b then Memory.read m a else if x = a then Memory.read m b else Memory.read m x := by
  simp [Memory.swap]

/-! ## The canonical form -/

theorem wfFrom_cons (lo : Nat) (c : Host.Cell) (t : List Host.Cell) :
    Memory.wfFrom lo (c :: t) = true ↔
      lo ≤ c.1 ∧ c.1 < Config.permSize ∧ c.2 ≠ unlistedByte ∧ Memory.wfFrom (c.1 + 1) t = true := by
  simp [Memory.wfFrom, Nat.blt_eq, and_assoc]

theorem wfFrom_mono {lo lo' : Nat} (h : lo' ≤ lo) {m : List Host.Cell}
    (hm : Memory.wfFrom lo m = true) : Memory.wfFrom lo' m = true := by
  cases m with
  | nil => rfl
  | cons c t =>
    rw [wfFrom_cons] at hm ⊢
    exact ⟨h.trans hm.1, hm.2⟩

theorem wfFrom_erase (a : Nat) {lo : Nat} {m : List Host.Cell} (hm : Memory.wfFrom lo m = true) :
    Memory.wfFrom lo (Memory.erase a m) = true := by
  induction m generalizing lo with
  | nil => rfl
  | cons c t ih =>
    rw [wfFrom_cons] at hm
    rw [erase_cons]
    split
    · exact ih (wfFrom_mono (by omega) hm.2.2.2)
    · exact (wfFrom_cons _ _ _).2 ⟨hm.1, hm.2.1, hm.2.2.1, ih hm.2.2.2⟩

theorem wfFrom_insert {a lo : Nat} {v : Byte} {m : List Host.Cell} (hlo : lo ≤ a)
    (ha : a < Config.permSize) (hv : v ≠ unlistedByte) (he : ∀ c ∈ m, c.1 ≠ a)
    (hm : Memory.wfFrom lo m = true) : Memory.wfFrom lo (Memory.insert a v m) = true := by
  induction m generalizing lo with
  | nil => exact (wfFrom_cons _ _ _).2 ⟨hlo, ha, hv, rfl⟩
  | cons c t ih =>
    rw [List.forall_mem_cons] at he
    have hm' := (wfFrom_cons _ _ _).1 hm
    rw [insert_cons]
    split
    · next h => exact (wfFrom_cons _ _ _).2 ⟨hlo, ha, hv, (wfFrom_cons _ _ _).2 ⟨h, hm'.2⟩⟩
    · have := he.1
      exact (wfFrom_cons _ _ _).2 ⟨hm'.1, hm'.2.1, hm'.2.2.1,
        ih (by omega) he.2 hm'.2.2.2⟩

/-- A write keeps the canonical form. -/
theorem wf_write {m : List Host.Cell} (a v : Byte) (hm : Memory.wf m = true) :
    Memory.wf (Memory.write m a v) = true := by
  rw [write_eq]
  split
  · exact wfFrom_erase a.toNat hm
  · next hv =>
    exact wfFrom_insert (Nat.zero_le _) a.isLt hv (not_mem_erase _ m) (wfFrom_erase _ hm)

/-- A swap keeps the canonical form. -/
theorem wf_swap {m : List Host.Cell} (a b : Byte) (hm : Memory.wf m = true) :
    Memory.wf (Memory.swap m a b) = true := wf_write _ _ (wf_write _ _ hm)

/-! ## A store given by a function -/

theorem entries_succ (f : Byte → Byte) (lo n : Nat) :
    ((List.range' lo (n + 1)).filterMap fun k => Memory.entry k (f (trunc8 k))) =
      (Memory.entry lo (f (trunc8 lo))).toList ++
        (List.range' (lo + 1) n).filterMap fun k => Memory.entry k (f (trunc8 k)) := by
  rw [List.range'_succ, List.filterMap_cons]
  split <;> next h => simp [h]

theorem read_entries (f : Byte → Byte) (a : Byte) (lo n : Nat) (hn : lo + n ≤ 256) :
    Memory.read ((List.range' lo n).filterMap fun k => Memory.entry k (f (trunc8 k))) a =
      if lo ≤ a.toNat ∧ a.toNat < lo + n then f a else unlistedByte := by
  induction n generalizing lo with
  | zero => simp
  | succ n ih =>
    have hr := ih (lo + 1) (by omega)
    rw [entries_succ, entry_eq]
    by_cases he : lo = a.toNat
    · have ht : trunc8 lo = a := by simp [he, trunc8]
      rw [ht]
      split
      · next hu => rw [Option.toList_none, List.nil_append, hr, hu, ite_self, ite_self]
      · simp [read_cons, he]
    · rw [if_congr (show lo + 1 ≤ a.toNat ∧ a.toNat < lo + 1 + n ↔
          lo ≤ a.toNat ∧ a.toNat < lo + (n + 1) by omega) rfl rfl] at hr
      split
      · rwa [Option.toList_none, List.nil_append]
      · rwa [Option.toList_some, List.singleton_append, read_cons, if_neg he]

/-- Cell `a` of the store given by `f` holds `f a`. -/
@[simp] theorem read_ofFn (f : Byte → Byte) (a : Byte) : Memory.read (Memory.ofFn f) a = f a := by
  have h := read_entries f a 0 256 (by omega)
  have ha : a.toNat < 256 := a.isLt
  rw [← List.range_eq_range'] at h
  simpa [Memory.ofFn, Config.permSize, ha] using h

theorem wfFrom_entries (f : Byte → Byte) (lo n : Nat) (hn : lo + n ≤ 256) :
    Memory.wfFrom lo ((List.range' lo n).filterMap fun k => Memory.entry k (f (trunc8 k))) =
      true := by
  induction n generalizing lo with
  | zero => rfl
  | succ n ih =>
    have hr := ih (lo + 1) (by omega)
    rw [entries_succ, entry_eq]
    split
    · exact wfFrom_mono (Nat.le_succ lo) hr
    · next hu =>
      exact (wfFrom_cons _ _ _).2 ⟨Nat.le_refl _, by simp only [Config.permSize]; omega, hu, hr⟩

/-- The store given by a function is in canonical form. -/
theorem wf_ofFn (f : Byte → Byte) : Memory.wf (Memory.ofFn f) = true := by
  have h := wfFrom_entries f 0 256 (by omega)
  rw [← List.range_eq_range'] at h
  rwa [Memory.ofFn]

/-! ## Equal bytes, equal data -/

theorem read_below {lo : Nat} {m : List Host.Cell} (hm : Memory.wfFrom lo m = true) {a : Byte}
    (ha : a.toNat < lo) : Memory.read m a = unlistedByte := by
  induction m generalizing lo with
  | nil => rfl
  | cons c t ih =>
    rw [wfFrom_cons] at hm
    have : c.1 ≠ a.toNat := by omega
    simp [read_cons, this, ih hm.2.2.2 (by omega)]

theorem wfFrom_ext {lo lo' : Nat} {m m' : List Host.Cell} (hm : Memory.wfFrom lo m = true)
    (hm' : Memory.wfFrom lo' m' = true) (h : ∀ a, Memory.read m a = Memory.read m' a) : m = m' := by
  induction m generalizing lo lo' m' with
  | nil =>
    cases m' with
    | nil => rfl
    | cons d t' =>
      obtain ⟨_, hd, hv, _⟩ := (wfFrom_cons _ _ _).1 hm'
      have := h (BitVec.ofNat 8 d.1)
      have hmod : d.1 % 256 = d.1 := Nat.mod_eq_of_lt hd
      simp [read_cons, hmod] at this
      exact absurd this.symm hv
  | cons c t ih =>
    obtain ⟨_, hc, hv, ht⟩ := (wfFrom_cons _ _ _).1 hm
    have hcm : c.1 % 256 = c.1 := Nat.mod_eq_of_lt hc
    cases m' with
    | nil =>
      have := h (BitVec.ofNat 8 c.1)
      simp [read_cons, hcm] at this
      exact absurd this hv
    | cons d t' =>
      obtain ⟨_, hd, hv', ht'⟩ := (wfFrom_cons _ _ _).1 hm'
      have hdm : d.1 % 256 = d.1 := Nat.mod_eq_of_lt hd
      have hk : c.1 = d.1 := by
        rcases Nat.lt_trichotomy c.1 d.1 with hlt | heq | hgt
        · have := h (BitVec.ofNat 8 c.1)
          rw [read_cons, read_cons, read_below ht' (by simp [hcm]; omega)] at this
          simp [hcm, show d.1 ≠ c.1 by omega] at this
          exact absurd this hv
        · exact heq
        · have := h (BitVec.ofNat 8 d.1)
          rw [read_cons, read_cons, read_below ht (by simp [hdm]; omega)] at this
          simp [hdm, show c.1 ≠ d.1 by omega] at this
          exact absurd this.symm hv'
      have hval : c.2 = d.2 := by
        have := h (BitVec.ofNat 8 c.1)
        simpa [read_cons, hcm, ← hk] using this
      have htail : t = t' := by
        refine ih ht ht' fun a => ?_
        by_cases ha : c.1 = a.toNat
        · rw [read_below ht (by omega), read_below ht' (by omega)]
        · simpa [read_cons, ha, ← hk] using h a
      rw [htail, Prod.ext hk hval]

/-- Two canonical stores with the same byte in every cell are the same data. -/
theorem wf_ext {m m' : List Host.Cell} (hm : Memory.wf m = true) (hm' : Memory.wf m' = true)
    (h : ∀ a, Memory.read m a = Memory.read m' a) : m = m' := wfFrom_ext hm hm' h

end Sys2Proof.Laws
end

