-- ==== Sys2Proof/Laws/State.lean ====
section
/-! SUPPORT. One lemma per field per update of the state, each true by rfl, so that no later proof
unfolds a record update. -/

namespace Sys2Proof.Laws

open Sys2Proof.Machine

/-! ## respond -/

@[simp] theorem respond_perm (s : State) (payload : List Byte) : (s.respond payload).perm = s.perm := rfl
@[simp] theorem respond_phase (s : State) (payload : List Byte) : (s.respond payload).phase = s.phase := rfl
@[simp] theorem respond_params (s : State) (payload : List Byte) : (s.respond payload).params = s.params := rfl
@[simp] theorem respond_inbox (s : State) (payload : List Byte) : (s.respond payload).inbox = s.inbox := rfl
@[simp] theorem respond_outbox (s : State) (payload : List Byte) : (s.respond payload).outbox = s.outbox ++ [.ok payload] := rfl
@[simp] theorem respond_freeCount (s : State) (payload : List Byte) : (s.respond payload).freeCount = s.freeCount := rfl

/-! ## raise -/

@[simp] theorem raise_perm (s : State) (kind : ErrKind) : (s.raise kind).perm = s.perm := rfl
@[simp] theorem raise_phase (s : State) (kind : ErrKind) : (s.raise kind).phase = s.phase := rfl
@[simp] theorem raise_params (s : State) (kind : ErrKind) : (s.raise kind).params = s.params := rfl
@[simp] theorem raise_inbox (s : State) (kind : ErrKind) : (s.raise kind).inbox = s.inbox := rfl
@[simp] theorem raise_outbox (s : State) (kind : ErrKind) : (s.raise kind).outbox = s.outbox ++ [.err kind] := rfl
@[simp] theorem raise_freeCount (s : State) (kind : ErrKind) : (s.raise kind).freeCount = s.freeCount := rfl

/-! ## issue -/

@[simp] theorem issue_perm (s : State) (r : Request) : (s.issue r).perm = s.perm := rfl
@[simp] theorem issue_phase (s : State) (r : Request) : (s.issue r).phase = s.phase := rfl
@[simp] theorem issue_params (s : State) (r : Request) : (s.issue r).params = s.params := rfl
@[simp] theorem issue_inbox (s : State) (r : Request) : (s.issue r).inbox = .command r :: s.inbox := rfl
@[simp] theorem issue_outbox (s : State) (r : Request) : (s.issue r).outbox = s.outbox := rfl
@[simp] theorem issue_freeCount (s : State) (r : Request) : (s.issue r).freeCount = s.freeCount := rfl

/-! ## discard -/

@[simp] theorem discard_phase (s : State) : (s.discard).phase = .idle := rfl
@[simp] theorem discard_params (s : State) : (s.discard).params = s.params := rfl
@[simp] theorem discard_inbox (s : State) : (s.discard).inbox = s.inbox := rfl
@[simp] theorem discard_outbox (s : State) : (s.discard).outbox = s.outbox := rfl
@[simp] theorem discard_freeCount (s : State) : (s.discard).freeCount = s.freeCount + Config.permSize := rfl
@[simp] theorem discard_i (s : State) : s.discard.perm.i = 0#8 := rfl
@[simp] theorem discard_j (s : State) : s.discard.perm.j = 0#8 := rfl
@[simp] theorem discard_S (s : State) :
    s.discard.perm.S = Memory.ofFn fun a => Config.freeByte (s.freeCount + a.toNat) := rfl

/-! ## STATUS -/

@[simp] theorem status_idle {s : State} (h : s.phase = .idle) : s.status = 0x00#8 := by
  simp [State.status, h, Phase.code, zext]

@[simp] theorem status_keyed {s : State} (h : s.phase = .keyed) : s.status = 0x01#8 := by
  simp [State.status, h, Phase.code, zext]

@[simp] theorem status_spent {s : State} (h : s.phase = .spent) : s.status = 0x02#8 := by
  simp [State.status, h, Phase.code, zext]

/-! ## Cursors as registers -/

@[simp] theorem readCursor_zero (p : PermutationState) : readCursor p 0 = p.i := rfl
@[simp] theorem readCursor_one (p : PermutationState) : readCursor p 1 = p.j := rfl

/-- A cursor write changes the one cursor named and no cell of the store. -/
theorem readCursor_writeCursor (p : PermutationState) (r q : Fin 2) (v : Byte) :
    readCursor (writeCursor p r v) q = (if q = r then v else readCursor p q) ∧
      (writeCursor p r v).S = p.S := by
  revert r q; simp [Fin.forall_fin_two, readCursor, writeCursor]

end Sys2Proof.Laws
end

