-- ==== Sys2Proof/Laws/Ops.lean ====
section
/-! SUPPORT. What the shared operations of a command can do: the checks, the guard, and one equation of
`exec` for each way each command can end. -/

namespace Sys2Proof.Laws

open Sys2Proof.Machine

/-! ## Bounds and checks -/

theorem exceeds_eq_false {bound : Option Nat} {n : Nat} :
    exceeds bound n = false ↔ InBound bound n := by
  cases bound with
  | none => simp [exceeds, InBound]
  | some b =>
    cases h : Nat.blt b n
    · simp only [exceeds, h, InBound, Option.some.injEq, true_iff]
      rintro _ rfl
      exact Nat.le_of_not_lt fun hl => by simp [Nat.blt_eq.mpr hl] at h
    · simp only [exceeds, h, InBound, Option.some.injEq, Bool.true_eq_false, false_iff]
      intro hb
      have := hb b rfl
      rw [Nat.blt_eq] at h
      omega

theorem exceeds_eq_true {bound : Option Nat} {n : Nat} :
    exceeds bound n = true ↔ ¬ InBound bound n := by
  rw [← exceeds_eq_false, Bool.not_eq_false]

theorem inBound_none (n : Nat) : InBound none n := fun _ h => nomatch h

theorem checkSched_eq_none {p : Config.Params} {key : List Byte} :
    checkSched p key = none ↔ key ≠ [] ∧ InBound p.keyMax key.length := by
  rw [← exceeds_eq_false]
  cases key <;> simp [checkSched]

theorem checkGen_eq_none {phase : Phase} {p : Config.Params} {count : Nat} :
    checkGen phase p count = none ↔ phase = .keyed ∧ InBound p.lenMax count := by
  rw [← exceeds_eq_false]
  cases phase <;> simp [checkGen]

theorem checkXorc_eq_none {p : Config.Params} {data ks : List Byte} :
    checkXorc p data ks = none ↔ data.length = ks.length ∧ InBound p.lenMax data.length := by
  rw [← exceeds_eq_false]
  by_cases h : data.length = ks.length <;> simp [checkXorc, h]

theorem checkCrypt_eq_none {p : Config.Params} {key data : List Byte} :
    checkCrypt p key data = none ↔
      key ≠ [] ∧ data ≠ [] ∧ InBound p.keyMax key.length ∧ InBound p.lenMax data.length := by
  rw [← exceeds_eq_false, ← exceeds_eq_false]
  cases key with
  | nil => simp [checkCrypt]
  | cons k key =>
    cases data with
    | nil => simp [checkCrypt]
    | cons d data =>
      cases hk : exceeds p.keyMax (k :: key).length <;> simp_all [checkCrypt]

/-! ## The guard -/

theorem guarded_none (s d : State) : s.guarded none d = .next d := rfl

theorem guarded_some (s d : State) (k : ErrKind) : s.guarded (some k) d = .next (s.raise k) := rfl

/-- ALL THE GUARD DOES: a failing check refuses, otherwise the command is done. -/
theorem guarded_next {s t d : State} {c : Option ErrKind} :
    s.guarded c d = .next t ↔ (∃ k, c = some k ∧ t = s.raise k) ∨ (c = none ∧ t = d) := by
  cases c <;> simp [State.guarded, eq_comm]

/-! ## What a command can do -/

/-- The state an admitted command leaves. -/
def admitted (i : Instr) (s : State) : State :=
  match i with
  | .stat => s.respond [s.status]
  | .clear => s.discard.respond []
  | .sched key => ({ s with perm := schedule key, phase := .keyed } : State).respond []
  | .gen count =>
    ({ s with perm := (prgaRun count (prgaStart s.perm)).1, phase := .spent } : State).respond
      (prgaRun count (prgaStart s.perm)).2
  | .xorc data ks => s.respond (xorBytes data ks)
  | .crypt key data =>
    ({ s with
        perm := (cryptRun data (prgaStart (schedule key))).1, phase := .spent } : State).respond
      (cryptRun data (prgaStart (schedule key))).2

@[simp] theorem admitted_phase (i : Instr) (s : State) :
    (admitted i s).phase = (match i with
      | .stat => s.phase
      | .clear => .idle
      | .sched _ => .keyed
      | .gen _ => .spent
      | .xorc _ _ => s.phase
      | .crypt _ _ => .spent) := by cases i <;> rfl

@[simp] theorem admitted_params (i : Instr) (s : State) : (admitted i s).params = s.params := by
  cases i <;> rfl

@[simp] theorem admitted_inbox (i : Instr) (s : State) : (admitted i s).inbox = s.inbox := by
  cases i <;> rfl

/-- The check a command makes first; none for STAT and CLEAR. -/
def checkOf (i : Instr) (s : State) : Option ErrKind :=
  match i with
  | .stat => none
  | .clear => none
  | .sched key => checkSched s.params key
  | .gen count => checkGen s.phase s.params count
  | .xorc data ks => checkXorc s.params data ks
  | .crypt key data => checkCrypt s.params key data

/-- Every command is its check, then its effect. -/
theorem exec_eq (i : Instr) (s : State) : exec i s = s.guarded (checkOf i s) (admitted i s) := by
  cases i <;> rfl

/-- ALL A COMMAND DOES: it is refused and only a response is added, or it is admitted. -/
theorem exec_next {i : Instr} {s t : State} :
    exec i s = .next t ↔
      (∃ k, checkOf i s = some k ∧ t = s.raise k) ∨ (checkOf i s = none ∧ t = admitted i s) := by
  rw [exec_eq, guarded_next]

theorem exec_admitted {i : Instr} {s : State} (h : checkOf i s = none) :
    exec i s = .next (admitted i s) := by rw [exec_eq, h, guarded_none]

theorem exec_refused {i : Instr} {s : State} {k : ErrKind} (h : checkOf i s = some k) :
    exec i s = .next (s.raise k) := by rw [exec_eq, h, guarded_some]

/-- An admitted command answers `Ok` (60_exceptions.md R211). -/
theorem admitted_outbox (i : Instr) (s : State) :
    ∃ payload, (admitted i s).outbox = s.outbox ++ [.ok payload] := by
  cases i <;> exact ⟨_, rfl⟩

/-- A command is answered `Err(k)` exactly when its first failing check is `k`. -/
theorem answers_err {s t : State} {i : Instr} {k : ErrKind} (h : exec i s = .next t) :
    Answers s t (.err k) ↔ checkOf i s = some k := by
  rcases exec_next.1 h with ⟨k', hc, rfl⟩ | ⟨hc, rfl⟩
  · simp [Answers, hc, eq_comm]
  · obtain ⟨p, hp⟩ := admitted_outbox i s
    simp [Answers, hp, hc]

/-- A command answered `Ok` passed its checks and had its effect. -/
theorem answers_ok {s t : State} {i : Instr} {payload : List Byte} (h : exec i s = .next t)
    (ha : Answers s t (.ok payload)) : checkOf i s = none ∧ t = admitted i s := by
  rcases exec_next.1 h with ⟨k, hc, rfl⟩ | h
  · simp [Answers] at ha
  · exact h

theorem append_single_inj {α : Type} {l : List α} {x y : α} (h : l ++ [x] = l ++ [y]) : x = y := by
  simpa using h

end Sys2Proof.Laws
end

