-- ==== Sys2Proof/Laws/Algorithm.lean ====
section
/-! SUPPORT. The rounds of the key schedule and of the generator: what each does, that each keeps the
permutation and the canonical form, and that a run is its rounds. -/

namespace Sys2Proof.Laws

open Sys2Proof.Machine

/-! ## Permutations -/

theorem isPermutation_iff {m : List Host.Cell} :
    IsPermutation m ↔ Function.Bijective (Memory.read m) :=
  Function.bijective_iff_existsUnique _ |>.symm

/-- A swap keeps a permutation (10_state.md R24). -/
theorem isPermutation_swap {m : List Host.Cell} (a b : Byte) (h : IsPermutation m) :
    IsPermutation (Memory.swap m a b) := by
  rw [isPermutation_iff] at h ⊢
  have : Memory.read (Memory.swap m a b) = Memory.read m ∘ Equiv.swap a b := by
    funext x
    rw [read_swap, Function.comp_apply, Equiv.swap_apply_def]
    split_ifs <;> simp_all
  rw [this]
  exact h.comp (Equiv.swap a b).bijective

/-! ## The key schedule -/

@[simp] theorem read_ksaFill (a : Byte) : Memory.read ksaFill a = a := by simp [ksaFill]

theorem isPermutation_ksaFill : IsPermutation ksaFill := by
  rw [isPermutation_iff, show Memory.read ksaFill = id from funext read_ksaFill]
  exact Function.bijective_id

/-- ALL A KSA ROUND DOES (40_ksa.md R113). -/
theorem ksaRound_eq (key : List Byte) (ki : Byte) (c : List Host.Cell × Byte) :
    ksaRound key ki c =
      (Memory.swap c.1 ki (c.2 + Memory.read c.1 ki + keyByte key ki),
        c.2 + Memory.read c.1 ki + keyByte key ki) := rfl

theorem isPermutation_ksaRounds (key : List Byte) (n : Nat) :
    IsPermutation (ksaRounds key n).1 := by
  induction n with
  | zero => exact isPermutation_ksaFill
  | succ n ih => exact isPermutation_swap _ _ ih

theorem wf_ksaRounds (key : List Byte) (n : Nat) : Memory.wf (ksaRounds key n).1 = true := by
  induction n with
  | zero => exact wf_ofFn fun a => a
  | succ n ih => exact wf_swap _ _ ih

/-- A swap read from the other cell first is the exchange of the reference. -/
theorem exchange_eq (f : Reference.Store) (a b x : Byte) :
    (if x = b then f a else if x = a then f b else f x) = Reference.exchange f a b x := by
  unfold Reference.exchange
  by_cases ha : x = a
  · by_cases hb : x = b
    · rw [if_pos hb, if_pos ha, ← ha, ← hb]
    · rw [if_neg hb, if_pos ha, if_pos ha]
  · rw [if_neg ha, if_neg ha]

/-- The store and accumulator after `n` rounds are the mathematical ones. -/
theorem ksaRounds_eq_reference (key : List Byte) (n : Nat) (hn : n ≤ 256) :
    (∀ a, Memory.read (ksaRounds key n).1 a = (Reference.ksa key n).1 a) ∧
      (ksaRounds key n).2 = (Reference.ksa key n).2 := by
  induction n with
  | zero => exact ⟨read_ksaFill, rfl⟩
  | succ n ih =>
    obtain ⟨hS, hkj⟩ := ih (by omega)
    have hk : keyByte key (trunc8 n) = key.getD (n % key.length) 0#8 := by
      simp [keyByte, umod, trunc8, Nat.mod_eq_of_lt (show n < 256 by omega)]
    have he : (ksaRounds key (n + 1)).2 = (Reference.ksa key (n + 1)).2 := by
      simp only [ksaRounds, ksaRound_eq, Reference.ksa, hS, hkj, hk]
      rfl
    refine ⟨fun a => ?_, he⟩
    have hsw : (ksaRounds key (n + 1)).1 =
        Memory.swap (ksaRounds key n).1 (trunc8 n) (ksaRounds key (n + 1)).2 := rfl
    have href : (Reference.ksa key (n + 1)).1 =
        Reference.exchange (Reference.ksa key n).1 (trunc8 n) (Reference.ksa key (n + 1)).2 := rfl
    rw [hsw, he, read_swap, href, hS, hS, hS]
    exact exchange_eq _ _ _ _

/-- What the schedule is: the store after 256 rounds, both cursors 0 (40_ksa.md R116). -/
theorem schedule_eq (key : List Byte) :
    schedule key = { S := (ksaRounds key Config.permSize).1, i := 0#8, j := 0#8 } := by
  delta schedule
  exact Eq.refl _

theorem schedule_S (key : List Byte) : (schedule key).S = (ksaRounds key 256).1 := by
  rw [schedule_eq, Config.permSize]

@[simp] theorem schedule_i (key : List Byte) : (schedule key).i = 0#8 := by rw [schedule_eq]

@[simp] theorem schedule_j (key : List Byte) : (schedule key).j = 0#8 := by rw [schedule_eq]

/-- What SCHED leaves to read: the key's permutation (40_ksa.md R110). -/
theorem read_schedule (key : List Byte) (a : Byte) :
    Memory.read (schedule key).S a = Reference.permutation key a := by
  rw [schedule_S, (ksaRounds_eq_reference key 256 (Nat.le_refl _)).1, Reference.permutation]

theorem isPermutation_schedule (key : List Byte) : IsPermutation (schedule key).S :=
  schedule_S key ▸ isPermutation_ksaRounds key 256

theorem wf_schedule (key : List Byte) : Memory.wf (schedule key).S = true :=
  schedule_S key ▸ wf_ksaRounds key 256

/-- The schedule depends on the 256 key bytes the rounds read and on nothing else (40_ksa.md R115). -/
theorem schedule_congr {k₁ k₂ : List Byte}
    (h : ∀ n < 256, keyByte k₁ (trunc8 n) = keyByte k₂ (trunc8 n)) : schedule k₁ = schedule k₂ := by
  have hr : ∀ n ≤ 256, ksaRounds k₁ n = ksaRounds k₂ n := by
    intro n
    induction n with
    | zero => intro _; rfl
    | succ n ih => intro hn; simp only [ksaRounds, ksaRound_eq, ih (by omega), h n (by omega)]
  rw [schedule_eq, schedule_eq, Config.permSize, hr 256 (Nat.le_refl _)]

/-! ## The generator -/

/-- ALL A PRGA ROUND DOES to the state (41_prga.md R133). -/
theorem prgaAdvance_eq (p : PermutationState) :
    prgaAdvance p =
      { S := Memory.swap p.S (p.i + 1#8) (p.j + Memory.read p.S (p.i + 1#8))
        i := p.i + 1#8
        j := p.j + Memory.read p.S (p.i + 1#8) } := rfl

/-- What a round emits (41_prga.md R133). -/
theorem prgaEmit_eq (p : PermutationState) :
    prgaEmit p = Memory.read p.S (Memory.read p.S p.i + Memory.read p.S p.j) := rfl

theorem isPermutation_prgaAdvance {p : PermutationState} (h : IsPermutation p.S) :
    IsPermutation (prgaAdvance p).S := isPermutation_swap _ _ h

theorem wf_prgaAdvance {p : PermutationState} (h : Memory.wf p.S = true) :
    Memory.wf (prgaAdvance p).S = true := wf_swap _ _ h

@[simp] theorem prgaRun_zero (p : PermutationState) : prgaRun 0 p = (p, []) := rfl

theorem prgaRun_succ (n : Nat) (p : PermutationState) :
    prgaRun (n + 1) p =
      ((prgaRun n (prgaAdvance p)).1, prgaEmit (prgaAdvance p) :: (prgaRun n (prgaAdvance p)).2) :=
  rfl

/-- The state after `n` rounds is the `n`-fold round. -/
theorem prgaRun_state (n : Nat) (p : PermutationState) :
    (prgaRun n p).1 = prgaAdvance^[n] p := by
  induction n generalizing p with
  | zero => rfl
  | succ n ih => rw [prgaRun_succ, ih, Function.iterate_succ_apply]

@[simp] theorem prgaRun_length (n : Nat) (p : PermutationState) :
    (prgaRun n p).2.length = n := by
  induction n generalizing p with
  | zero => rfl
  | succ n ih => simp [prgaRun_succ, ih]

/-- Byte `k` of a run is what the state after `k + 1` rounds emits (41_prga.md R131). -/
theorem prgaRun_bytes (n : Nat) (p : PermutationState) :
    (prgaRun n p).2 = (List.range n).map fun k => prgaEmit (prgaAdvance^[k + 1] p) := by
  induction n generalizing p with
  | zero => rfl
  | succ n ih =>
    rw [prgaRun_succ, List.range_succ_eq_map, List.map_cons, List.map_map, ih]
    rfl

theorem isPermutation_iterate {p : PermutationState} (h : IsPermutation p.S) (n : Nat) :
    IsPermutation (prgaAdvance^[n] p).S := by
  induction n with
  | zero => exact h
  | succ n ih => rw [Function.iterate_succ_apply']; exact isPermutation_prgaAdvance ih

theorem wf_iterate {p : PermutationState} (h : Memory.wf p.S = true) (n : Nat) :
    Memory.wf (prgaAdvance^[n] p).S = true := by
  induction n with
  | zero => exact h
  | succ n ih => rw [Function.iterate_succ_apply']; exact wf_prgaAdvance ih

/-- Store and cursors after `n` rounds from the start are the mathematical ones. -/
theorem iterate_eq_reference {p : PermutationState} {f : Reference.Store}
    (hf : ∀ a, Memory.read p.S a = f a) (n : Nat) :
    (∀ a, Memory.read (prgaAdvance^[n] (prgaStart p)).S a = (Reference.prga f n).1 a) ∧
      (prgaAdvance^[n] (prgaStart p)).i = BitVec.ofNat 8 n ∧
      (prgaAdvance^[n] (prgaStart p)).j = (Reference.prga f n).2 := by
  induction n with
  | zero => exact ⟨hf, rfl, rfl⟩
  | succ n ih =>
    obtain ⟨hS, hi, hj⟩ := ih
    have hi' : (prgaAdvance^[n] (prgaStart p)).i + 1#8 = BitVec.ofNat 8 (n + 1) := by
      rw [hi]
      exact BitVec.eq_of_toNat_eq (by simp)
    have hj' : (prgaAdvance^[n] (prgaStart p)).j +
        Memory.read (prgaAdvance^[n] (prgaStart p)).S (BitVec.ofNat 8 (n + 1)) =
          (Reference.prga f (n + 1)).2 := by rw [hj, hS]; rfl
    rw [Function.iterate_succ_apply', prgaAdvance_eq]
    simp only [hi', hj', and_true]
    intro a
    rw [read_swap, hS, hS, hS]
    exact exchange_eq _ _ _ _

/-- The bytes of a run from the start are the mathematical keystream (41_prga.md R130). -/
theorem prgaRun_eq_keystream {p : PermutationState} {f : Reference.Store}
    (hf : ∀ a, Memory.read p.S a = f a) (n : Nat) :
    (prgaRun n (prgaStart p)).2 = Reference.keystreamBytes f n := by
  rw [prgaRun_bytes]
  refine List.map_congr_left fun k _ => ?_
  obtain ⟨hS, hi, hj⟩ := iterate_eq_reference hf (k + 1)
  rw [prgaEmit_eq]
  simp only [hS, hi, hj]
  rfl

@[simp] theorem keystreamBytes_length (f : Reference.Store) (n : Nat) :
    (Reference.keystreamBytes f n).length = n := by simp [Reference.keystreamBytes]

/-! ## The composite run -/

/-- CRYPT's run is the generator's run combined with the data (42_cipher_engine.md R155). -/
theorem cryptRun_eq (data : List Byte) (p : PermutationState) :
    cryptRun data p =
      ((prgaRun data.length p).1, xorBytes data (prgaRun data.length p).2) := by
  induction data generalizing p with
  | nil => rfl
  | cons d data ih => simp only [cryptRun, ih]; rfl

/-- Combining twice with the same keystream gives the data back (42_cipher_engine.md R153). -/
theorem xorBytes_twice {data ks : List Byte} (h : data.length = ks.length) :
    xorBytes (xorBytes data ks) ks = data := by
  induction data generalizing ks with
  | nil => simp [xorBytes]
  | cons d data ih =>
    cases ks with
    | nil => simp at h
    | cons k ks =>
      have := ih (ks := ks) (by simpa using h)
      simpa [xorBytes, xor8, BitVec.xor_assoc] using this

end Sys2Proof.Laws
end

