-- ==== Sys2Proof/Laws/Decode.lean ====
section
/-! SUPPORT. What the decoder's table does, said once: a byte names a command exactly when it is that
command's byte. -/

namespace Sys2Proof.Laws

theorem lookupOp_commandByte (op : Op) : lookupOp (commandByte op) = some op := by
  cases op <;> decide

/-- The table is the inverse of the command bytes: no two rows overlap and no other byte is a command
(30_encoding.md R82, R86). -/
theorem lookupOp_eq_some {cmd : Byte} {op : Op} :
    lookupOp cmd = some op ↔ cmd = commandByte op := by
  refine ⟨fun h => ?_, fun h => h ▸ lookupOp_commandByte op⟩
  simp only [lookupOp, Option.map_eq_some_iff] at h
  obtain ⟨row, hf, rfl⟩ := h
  have hm := List.mem_of_find?_eq_some hf
  have hw : (cmd &&& row.mask) = row.word := by
    simpa [rowMatches] using List.find?_some hf
  have hrow : ∀ r ∈ opcodeRows, r.mask = 0xFF#8 ∧ r.word = commandByte r.op := by decide
  obtain ⟨h1, h2⟩ := hrow row hm
  rw [h1, h2, show 0xFF#8 = BitVec.allOnes 8 from rfl, BitVec.and_allOnes] at hw
  exact hw

theorem decode_commandByte (op : Op) (o : Operands) :
    decode { cmd := commandByte op, ops := o } = .ok (withOperands op o) := by
  simp only [decode, lookupOp_commandByte]

/-- ALL THE DECODER DOES: it reads a command exactly from that command's byte and the operands the
command takes. -/
theorem decode_eq_ok {r : Request} {i : Instr} :
    decode r = .ok i ↔ r.cmd = commandByte i.op ∧ i = withOperands i.op r.ops := by
  have hop : ∀ op, (withOperands op r.ops).op = op := fun op => by cases op <;> rfl
  constructor
  · intro h
    unfold decode at h
    split at h
    · next op hl =>
      obtain rfl : withOperands op r.ops = i := by simpa using h
      rw [hop]
      exact ⟨lookupOp_eq_some.1 hl, rfl⟩
    · simp at h
  · rintro ⟨hc, hi⟩
    have h : decode r = .ok (withOperands i.op r.ops) := by simp only [decode, hc, lookupOp_commandByte]
    rw [h, ← hi]

/-- A byte that is no command's is turned away, whatever the operands (30_encoding.md R86). -/
theorem decode_reserved {r : Request}
    (h : r.cmd ∉ [0x01#8, 0x02#8, 0x10#8, 0x20#8, 0x30#8, 0x31#8]) :
    decode r = .error .illegalCommand := by
  have hl : lookupOp r.cmd = none := by
    rcases hl : lookupOp r.cmd with _ | op
    · rfl
    · rw [lookupOp_eq_some.1 hl] at h
      exact absurd h (by cases op <;> decide)
  simp [decode, hl]

/-- The decoder refuses with one kind only (60_exceptions.md R204). -/
theorem decode_error {r : Request} {k : ErrKind} (h : decode r = .error k) :
    k = .illegalCommand := by
  unfold decode at h
  split at h <;> simp_all

end Sys2Proof.Laws
end

