-- ==== Sys2Proof/Laws/Codec.lean ====
section
/-! SUPPORT. The host's operations: what issuing one CRYPT gives the host, and the two character
policies. -/

namespace Sys2Proof.Laws

open Sys2Proof.Machine

@[simp] theorem textBytes_length (t : Text) : (textBytes t).length = t.length := by simp [textBytes]

@[simp] theorem rejects_default (t : Text) : rejects Config.CharPolicy.default t = false := rfl

/-- `reject` turns away exactly the texts with a character code above 255 (44_codec_boundary.md R182). -/
theorem rejects_reject {t : Text} : rejects .reject t = true ↔ ∃ c ∈ t, 255 < c.toNat := by
  simp [rejects]

/-- A command issued by the host is the next one the block performs. -/
theorem step_issue {s : State} {r : Request} {i : Instr} (h : decode r = .ok i) :
    step (s.issue r) = exec i s := by
  simp [step, takeNext, runEvent, State.issue, h]

/-- ALL THAT ISSUING CRYPT GIVES THE HOST: the payload as text, or the refusal passed on, and the state
the command leaves. -/
theorem hostCrypt_next {toText : List Byte → Text} {key data : List Byte} {s t : State}
    {r : Response} (h : exec (.crypt key data) s = .next t) (ha : Answers s t r) :
    hostCrypt toText key data s =
      (match r with
        | .ok out => .ok (toText out)
        | .err k => .error (.kind k), t) := by
  have hs : step (s.issue { cmd := 0x31#8, ops := { key := key, data := data } }) = .next t :=
    (step_issue (decode_commandByte .crypt _)).trans h
  unfold Answers at ha
  cases r <;> simp [hostCrypt, hostCall, hs, ha]

end Sys2Proof.Laws
end

