-- ==== Sys2Proof/Laws/PerInstr.lean ====
section
/-! SUPPORT. A statement about every command as text, one lemma per constructor: the encoder's command
byte is the byte the opcode map of 30_encoding.md R82 gives the command, and the decoder's table finds
the command under it. -/

namespace Sys2Proof.Laws.CommandByte

/-- The encoder, written from unit and func, and the decoder's table, written from the byte column,
name the same command; the fields of the byte are the command's unit and function (R81, R82). -/
def Statement (i : Instr) : Prop :=
  lookupOp (encode i).cmd = some i.op ∧
    unitField (encode i).cmd = unitOf i.op ∧ funcField (encode i).cmd = funcOf i.op

theorem of_op (op : Op) :
    lookupOp (commandByte op) = some op ∧
      unitField (commandByte op) = unitOf op ∧ funcField (commandByte op) = funcOf op := by
  cases op <;> decide

theorem stat : Statement .stat := of_op .stat
theorem clear : Statement .clear := of_op .clear
theorem sched (key : List Byte) : Statement (.sched key) := of_op .sched
theorem gen (count : Nat) : Statement (.gen count) := of_op .gen
theorem xorc (data ks : List Byte) : Statement (.xorc data ks) := of_op .xorc
theorem crypt (key data : List Byte) : Statement (.crypt key data) := of_op .crypt

end Sys2Proof.Laws.CommandByte
end

