-- ==== Sys2Proof/Laws/Step.lean ====
section
/-! SUPPORT. What a step can do, said once. -/

namespace Sys2Proof.Laws

open Sys2Proof.Machine

/-- ALL A STEP DOES: nothing when nothing has come; a command is executed or, if its byte is reserved,
refused; a reset discards the permutation. -/
theorem step_cases (s : State) :
    (s.inbox = [] ∧ step s = .next s) ∨
    (∃ r rest i, s.inbox = .command r :: rest ∧ decode r = .ok i ∧
      step s = exec i { s with inbox := rest }) ∨
    (∃ r rest k, s.inbox = .command r :: rest ∧ decode r = .error k ∧
      step s = .next (({ s with inbox := rest } : State).raise k)) ∨
    (∃ e rest, s.inbox = e :: rest ∧ (e = .reset ∨ ∃ r, e = .resetDuring r) ∧
      step s = .next ({ s with inbox := rest } : State).discard) := by
  rcases hb : s.inbox with _ | ⟨e, rest⟩
  · exact .inl ⟨rfl, by simp [step, takeNext, hb]⟩
  · cases e with
    | command r =>
      rcases hd : decode r with k | i
      · exact .inr (.inr (.inl ⟨r, rest, k, rfl, hd, by simp [step, takeNext, runEvent, hb, hd]⟩))
      · exact .inr (.inl ⟨r, rest, i, rfl, hd, by simp [step, takeNext, runEvent, hb, hd]⟩)
    | reset =>
      exact .inr (.inr (.inr ⟨_, rest, rfl, .inl rfl, by simp [step, takeNext, runEvent, hb]⟩))
    | resetDuring r =>
      exact .inr (.inr (.inr ⟨_, rest, rfl, .inr ⟨r, rfl⟩,
        by simp [step, takeNext, runEvent, hb]⟩))

end Sys2Proof.Laws
end

