-- ==== Sys2Proof/Machine/Assembler.lean ====
section
/-! DEFINITION. The text notation the spec writes commands and responses in (30_encoding.md R87; D28: the
spec's own, not a fact about any tool). No part of the block; log entry 16 says where R87 leaves the
notation open. -/

namespace Sys2Proof.Machine

/-! ## Writing -/

/-- The bytes two hex digits each, upper case (log entry 16), separated by single spaces. -/
def spacedHex : List Byte → Text
  | [] => []
  | [b] => hexByte b
  | b :: c :: t => hexByte b ++ ' ' :: spacedHex (c :: t)

/-- A bracketed byte list, `[]` the empty sequence (R87). -/
def bracketed (bs : List Byte) : Text := '[' :: spacedHex bs ++ [']']

/-- The operands of a command, named, none for STAT and CLEAR (R87). -/
def operandText : Instr → Text
  | .stat => []
  | .clear => []
  | .sched key => "key=".toList ++ bracketed key
  | .gen count => "count=".toList ++ Nat.toDigits 10 count
  | .xorc data ks => "data=".toList ++ bracketed data ++ ", ks=".toList ++ bracketed ks
  | .crypt key data => "key=".toList ++ bracketed key ++ ", data=".toList ++ bracketed data

/-- The mnemonic (R82). -/
def mnemonicText : Op → Text
  | .stat => "STAT".toList
  | .clear => "CLEAR".toList
  | .sched => "SCHED".toList
  | .gen => "GEN".toList
  | .xorc => "XORC".toList
  | .crypt => "CRYPT".toList

/-- Two texts with a separator between them, none when the second is empty. -/
def joined (a sep b : Text) : Text := if b.isEmpty then a else a ++ sep ++ b

/-- A command as a line of a program (R87). -/
def lineText (i : Instr) : Text := joined (mnemonicText i.op) " ".toList (operandText i)

/-- A command in encoded form: the command byte in hexadecimal, a bar, the operands (R87); no bar where
there are no operands (log entry 16). -/
def encodedText (i : Instr) : Text := joined (hexByte (encode i).cmd) " | ".toList (operandText i)

/-- The name of a refusal kind (60_exceptions.md R200). -/
def kindText : ErrKind → Text
  | .invalidKey => "InvalidKey".toList
  | .invalidCiphertextFormat => "InvalidCiphertextFormat".toList
  | .lengthMismatch => "LengthMismatch".toList
  | .illegalCommand => "IllegalCommand".toList
  | .notKeyed => "NotKeyed".toList
  | .emptyInput => "EmptyInput".toList
  | .operandRange => "OperandRange".toList

/-- A response as the examples write it after a command (R87). -/
def responseText : Response → Text
  | .ok payload => "-> Ok".toList ++ bracketed payload
  | .err kind => "-> Err(".toList ++ kindText kind ++ [')']

/-! ## Reading -/

/-- The pieces of a line. -/
inductive Token where
  | word (t : Text)
  | equals
  | comma
  | bytes (bs : List Byte)
  deriving DecidableEq, Repr

/-- Where the reader stands in a line. -/
inductive LexMode where
  /-- between pieces -/
  | between
  /-- inside a word -/
  | word (soFar : Text)
  /-- inside a byte list: the bytes so far, the first digit of a byte begun, whether a space is due -/
  | list (soFar : List Byte) (half : Option Nat) (spaceDue : Bool)
  /-- inside a quoted string -/
  | quoted (soFar : List Byte)
  deriving DecidableEq, Repr

/-- The pieces of a line, `;` starting a comment; none where a character fits nowhere (R87). What R87
leaves open is the model's choice (log entry 16): the hex digits of a byte list may be of either case,
any number of spaces may stand before, between and after pieces, between the bytes of a list and just
inside its brackets (`[ 4B ]`, `[ ]`), and a character of a quoted
string, `;` among them, stands for its code mod 256. A program line is the command alone: the characters
of a response after it (`->`) and of the encoded form (`|`) fit nowhere here, so such a line is unreadable;
both forms are written (`responseText`, `encodedText`) and not read (log entry 16). -/
def lex : LexMode → Text → Option (List Token)
  | .between, [] => some []
  | .word w, [] => some [.word w]
  | .list _ _ _, [] => none
  | .quoted _, [] => none
  | .between, c :: t =>
    if c = ' ' then lex .between t
    else if c = ';' then some []
    else if c = '=' then (lex .between t).map (Token.equals :: ·)
    else if c = ',' then (lex .between t).map (Token.comma :: ·)
    else if c = '[' then lex (.list [] none false) t
    else if c = '"' then lex (.quoted []) t
    else if c.isAlphanum then lex (.word [c]) t
    else none
  | .word w, c :: t =>
    if c.isAlphanum then lex (.word (w ++ [c])) t
    else if c = ' ' then (lex .between t).map (Token.word w :: ·)
    else if c = ';' then some [.word w]
    else if c = '=' then (lex .between t).map fun r => .word w :: .equals :: r
    else if c = ',' then (lex .between t).map fun r => .word w :: .comma :: r
    else none
  | .list bs (some h) _, c :: t =>
    match digitValue c with
    | some l => lex (.list (bs ++ [trunc8 (16 * h + l)]) none true) t
    | none => none
  | .list bs none spaceDue, c :: t =>
    if c = ']' then (lex .between t).map (Token.bytes bs :: ·)
    else if c = ' ' then lex (.list bs none false) t
    else if spaceDue then none
    else
      match digitValue c with
      | some h => lex (.list bs (some h) false) t
      | none => none
  | .quoted bs, c :: t =>
    if c = '"' then (lex .between t).map (Token.bytes bs :: ·)
    else lex (.quoted (bs ++ [trunc8 c.toNat])) t

/-- A decimal number (R87), leading zeros allowed (log entry 16); none if the text is empty or holds another character. -/
def decimalValue (t : Text) : Option Nat :=
  if t.isEmpty then none
  else
    t.foldl
      (fun acc c =>
        match acc with
        | some n => if c.isDigit then some (10 * n + (c.toNat - 48)) else none
        | none => none)
      (some 0)

/-- What a line of a program is. -/
inductive Line where
  /-- nothing, or spaces and a comment only (log entry 16) -/
  | blank
  | command (i : Instr)
  /-- not in the notation of R87 -/
  | unreadable
  deriving DecidableEq, Repr

/-- The pieces of a line as a command: the mnemonic, then its operands by name in the order of R87, names
in the case R87 writes them (log entry 16). -/
def readTokens : List Token → Line
  | [] => .blank
  | [.word m] =>
    if m = mnemonicText .stat then .command .stat
    else if m = mnemonicText .clear then .command .clear
    else .unreadable
  | [.word m, .word o, .equals, .bytes b] =>
    if m = mnemonicText .sched ∧ o = "key".toList then .command (.sched b) else .unreadable
  | [.word m, .word o, .equals, .word d] =>
    match decimalValue d with
    | some n =>
      if m = mnemonicText .gen ∧ o = "count".toList then .command (.gen n) else .unreadable
    | none => .unreadable
  | [.word m, .word o, .equals, .bytes b, .comma, .word o', .equals, .bytes b'] =>
    if m = mnemonicText .xorc ∧ o = "data".toList ∧ o' = "ks".toList then .command (.xorc b b')
    else if m = mnemonicText .crypt ∧ o = "key".toList ∧ o' = "data".toList then
      .command (.crypt b b')
    else .unreadable
  | _ => .unreadable

/-- A line of a program (R87): a command and its comment, neither the encoded form nor a response after it
(log entry 16). -/
def readLine (t : Text) : Line :=
  match lex .between t with
  | some tokens => readTokens tokens
  | none => .unreadable

/-- A program: the commands of its lines in order (R87). That an empty line or one with a comment only
stands for no command, and that one unreadable line makes the program unreadable, is log entry 16. -/
def readProgram : List Text → Option (List HostEvent)
  | [] => some []
  | l :: rest =>
    match readLine l, readProgram rest with
    | .blank, some es => some es
    | .command i, some es => some (.command (encode i) :: es)
    | _, _ => none

end Sys2Proof.Machine
end

