-- ==== Sys2Proof/Tests/Slice0.lean ====
section
/-! SUPPORT. Tests. Expected values come from spec/95_test_vectors.md or from hand calculation by the rules;
the source of each stands above it. Then, for every statement with hypotheses, a named witness that meets
them together, at boundary values where there are any. -/

namespace Sys2Proof.Tests

open Sys2Proof.Machine Sys2Proof.Laws

/-! ## Well-formedness: each check refuses an ill-formed term -/

theorem test_wf_sched_empty_key : (Instr.sched []).wellFormed = false := by decide
theorem test_wf_xorc_lengths : (Instr.xorc [0x41#8, 0x42#8] [0x25#8]).wellFormed = false := by decide
theorem test_wf_crypt_empty_key : (Instr.crypt [] [0x41#8]).wellFormed = false := by decide
theorem test_wf_crypt_empty_data : (Instr.crypt [0x4B#8] []).wellFormed = false := by decide
theorem test_wf_accepts :
    (Instr.stat.wellFormed && Instr.clear.wellFormed && (Instr.sched [0x00#8]).wellFormed &&
      (Instr.gen 0).wellFormed && (Instr.xorc [] []).wellFormed &&
      (Instr.crypt [0x4B#8] [0x41#8]).wellFormed) = true := by decide

/-! ## Decoding: the words of 30_encoding.md R82, bit by bit (unit in 7:4, func in 3:0) -/

/-- Some operands beside a command byte. -/
def someOps : Operands := { key := [0x4B#8], data := [0x41#8], ks := [0x25#8], count := 9 }

/-- What a byte decodes to with those operands. -/
def decoded (cmd : Byte) : Option Instr := (decode { cmd := cmd, ops := someOps }).toOption

theorem test_decode_stat : decoded 0b00000001#8 = some .stat := by decide
theorem test_decode_clear : decoded 0b00000010#8 = some .clear := by decide
theorem test_decode_sched : decoded 0b00010000#8 = some (.sched [0x4B#8]) := by decide
theorem test_decode_gen : decoded 0b00100000#8 = some (.gen 9) := by decide
theorem test_decode_xorc : decoded 0b00110000#8 = some (.xorc [0x41#8] [0x25#8]) := by decide
theorem test_decode_crypt : decoded 0b00110001#8 = some (.crypt [0x4B#8] [0x41#8]) := by decide

/-- V-DEC-3: of the one-bit changes of 0x10 only 0x30 is a command. -/
theorem test_decode_one_bit_changes :
    [0x11#8, 0x12#8, 0x14#8, 0x18#8, 0x00#8, 0x50#8, 0x90#8].map decoded =
      List.replicate 7 none := by decide

/-- 30_encoding.md R86: 250 reserved values. -/
theorem test_reserved_count :
    ((List.range 256).filter fun n => (lookupOp (trunc8 n)).isNone).length = 250 := by
  decide +kernel

theorem test_table_words :
    [0x01, 0x02, 0x10, 0x20, 0x30, 0x31, 0x00, 0xFF].map (decodeTableWord 8) =
      [some .stat, some .clear, some (.sched [0x00#8]), some (.gen 0),
        some (.xorc [0x00#8] [0x00#8]), some (.crypt [0x00#8] [0x00#8]), none, none] := by decide

/-! ## Primitives (95_test_vectors.md section 2.1) -/

theorem test_add8 :
    [add8 0xC8#8 0x64#8, add8 0xFF#8 0x01#8, add8 0xFF#8 0xFF#8, add8 0x80#8 0x80#8,
      add8 (add8 0xE4#8 0x03#8) 0x4B#8, inc8 0x7F#8, inc8 0xFF#8] =
    [0x2C#8, 0x00#8, 0xFE#8, 0x00#8, 0x32#8, 0x80#8, 0x00#8] := by decide

theorem test_xor8_umod :
    [xor8 0x41#8 0x25#8, xor8 0xFF#8 0xAB#8, xor8 0xAB#8 0xAB#8] = [0x64#8, 0x54#8, 0x00#8] ∧
      [umod 255 1, umod 5 3, umod 255 256, umod 200 9] = [0, 2, 255, 2] := by decide

/-! ## Small states and what a command answers -/

/-- The identity permutation scheduled, the cursors left over from something else. -/
def keyedState : State :=
  { State.reset with perm := { S := ksaFill, i := 0x03#8, j := 0x07#8 }, phase := .keyed }

/-- The same block, used. -/
def spentState : State := { keyedState with phase := .spent }

/-- `KEY_MAX` 1 and `LEN_MAX` 2. -/
def boundedState : State := { keyedState with params := { keyMax := some 1, lenMax := some 2 } }

/-- The state a command leaves. -/
def after (o : Host.Outcome State Fault Refusal) : Option State :=
  match o with
  | .next t => some t
  | .fault _ => none
  | .refused _ => none

/-- The response a command gives. -/
def answer (o : Host.Outcome State Fault Refusal) : Option Response :=
  (after o).bind fun t => t.outbox.getLast?

/-- V-CTL-1 to V-CTL-3: STAT in the three phases. -/
theorem test_stat :
    [State.reset, keyedState, spentState].map (fun s => answer (exec .stat s)) =
      [some (.ok [0x00#8]), some (.ok [0x01#8]), some (.ok [0x02#8])] := by decide +kernel

/-- V-CTL-4: CLEAR in KEYED leaves IDLE. -/
theorem test_clear :
    answer (exec .clear keyedState) = some (.ok []) ∧
      (after (exec .clear keyedState)).map State.phase = some .idle := by decide +kernel

/-- V-KSA-1, rounds 0 to 5: the accumulator after each. -/
theorem test_sched_accumulator :
    (List.range 6).map (fun n => (ksaRounds [0x4B#8] (n + 1)).2.toNat) =
      [75, 151, 228, 50, 129, 209] := by decide +kernel

/-- V-KSA-3, rounds 0 to 5 of the key [00]: two self-swaps first, then cells already moved. -/
theorem test_sched_self_swap :
    [0x00#8, 0x01#8, 0x02#8, 0x03#8, 0x04#8, 0x05#8, 0x0B#8].map
        (Memory.read (ksaRounds [0x00#8] 6).1) =
      [0x00#8, 0x01#8, 0x03#8, 0x05#8, 0x09#8, 0x0B#8, 0x02#8] := by decide +kernel

/-- By hand from 41_prga.md R133 on the identity: round 1 has i = j = 1 and t = 2, round 2 has i = 2,
j = 3 and t = 3 + 2. The old cursors do not count (R132). -/
theorem test_gen :
    answer (exec (.gen 2) keyedState) = some (.ok [0x02#8, 0x05#8]) ∧
      (after (exec (.gen 2) keyedState)).map (fun t => (t.perm.i, t.perm.j, t.phase)) =
        some (0x02#8, 0x03#8, .spent) := by decide +kernel

/-- V-PRGA-2 and V-PRGA-6: a count of zero, and a second GEN. -/
theorem test_gen_zero_and_again :
    (after (exec (.gen 0) keyedState)).map (fun t => (t.perm.i, t.perm.j, t.phase)) =
        some (0x00#8, 0x00#8, .spent) ∧
      answer (exec (.gen 1) spentState) = some (.err .notKeyed) := by decide +kernel

/-- V-XOR-4. -/
theorem test_xorc :
    answer (exec (.xorc [0x00#8, 0xFF#8, 0xAA#8, 0x55#8] [0xFF#8, 0xFF#8, 0xAA#8, 0xAA#8])
      State.reset) = some (.ok [0xFF#8, 0x00#8, 0x00#8, 0xFF#8]) := by decide

/-- V-XOR-7, and 60_exceptions.md R209: the lengths before the range. -/
theorem test_xorc_refusals :
    answer (exec (.xorc [] [0x25#8]) State.reset) = some (.err .lengthMismatch) ∧
      answer (exec (.xorc [1#8, 2#8, 3#8] [1#8, 2#8, 3#8, 4#8]) boundedState) =
        some (.err .lengthMismatch) ∧
      answer (exec (.xorc [1#8, 2#8, 3#8] [1#8, 2#8, 3#8]) boundedState) =
        some (.err .operandRange) := by decide

/-- V-CRYPT-2: the whole cipher, key "SECRETKEY" and data "HELLO". -/
theorem test_crypt :
    answer (exec (.crypt (textBytes "SECRETKEY".toList) (textBytes "HELLO".toList)) State.reset) =
      some (.ok [0x70#8, 0xCE#8, 0xA3#8, 0xD2#8, 0xFB#8]) := by decide +kernel

/-- V-CRYPT-6, and the ranges after the emptiness checks (60_exceptions.md R209). -/
theorem test_crypt_refusals :
    answer (exec (.crypt [] []) keyedState) = some (.err .invalidKey) ∧
      answer (exec (.crypt [0x4B#8, 0x4B#8] []) boundedState) = some (.err .emptyInput) ∧
      answer (exec (.crypt [0x4B#8, 0x4B#8] [0x41#8]) boundedState) =
        some (.err .operandRange) := by decide

/-- V-DEC-2: a reserved byte in KEYED, and P-3 rows 3 and 4: the status byte alone. -/
theorem test_reserved :
    answer (step (keyedState.issue { cmd := 0xFF#8, ops := someOps })) =
        some (.err .illegalCommand) ∧
      responseBytes (.err .illegalCommand) = [0x04#8] := by decide

/-- 70_reset_and_hazards.md R230: a reset gives no response. -/
theorem test_reset_event :
    (after (step { keyedState with inbox := [.reset] })).map
        (fun t => (t.phase, t.perm.i, t.perm.j, t.outbox)) = some (.idle, 0#8, 0#8, []) := by
  decide +kernel

/-- V-PRGA-6: after reset, GEN of count 0 from a table word is taken and refused. -/
theorem test_fetch_word :
    answer (step (State.reset.withFetchWord 8 0x20)) = some (.err .notKeyed) ∧
      answer (step (State.reset.withFetchWord 8 0x30)) = some (.ok [0x00#8]) := by decide

/-! ## The host's side -/

/-- V-HOST-11 and V-HOST-12. -/
theorem test_hex :
    hexEncode [0x00#8, 0x0A#8, 0xA0#8, 0xFF#8, 0x4B#8] = "000AA0FF4B".toList ∧
      hexDecode "000aA0fF4b".toList = some [0x00#8, 0x0A#8, 0xA0#8, 0xFF#8, 0x4B#8] := by
  decide +kernel

/-- V-HOST-6 to V-HOST-10 and V-HOST-13: what fails, and how. -/
theorem test_host_failures :
    (decrypt [] ['K'] State.reset).1 = .error (.kind .emptyInput) ∧
      (decrypt ['1', 'G'] ['K'] State.reset).1 =
        .error (.kind .invalidCiphertextFormat) ∧
      (decrypt ['1', '2', '3'] ['K'] State.reset).1 =
        .error (.kind .invalidCiphertextFormat) ∧
      (encrypt ['A'] [] State.reset).1 = .error (.kind .invalidKey) ∧
      (encrypt [Char.ofNat 0x141] ['K'] State.reset .reject).1 = .error .charRejected ∧
      textBytes [Char.ofNat 0x141] = [0x41#8] := by
  refine ⟨rfl, rfl, rfl, rfl, rfl, by decide⟩

/-- 60_exceptions.md R213: a failure leaves what was shown. -/
theorem test_shown : shown ['6', '4'] (.error (.kind .emptyInput)) = ['6', '4'] := rfl

/-- 30_encoding.md R87: the notation read and written, with a comment and a quoted string. -/
theorem test_assembler :
    readLine "  SCHED  key=\"Key\" ; three bytes".toList =
        .command (.sched [0x4B#8, 0x65#8, 0x79#8]) ∧
      readLine "XORC   data=[41 42], ks=[]".toList = .command (.xorc [0x41#8, 0x42#8] []) ∧
      readLine "GEN    count=257".toList = .command (.gen 257) ∧
      readLine "SCHED key=[4".toList = .unreadable ∧
      encodedText (.sched [0x4B#8]) = "10 | key=[4B]".toList ∧
      responseText (.err .notKeyed) = "-> Err(NotKeyed)".toList := by decide +kernel

/-! ## Witnesses -/

theorem witness_ReservedByteAnswersIllegal :
    (∀ b ∈ [0x00#8, 0x03#8, 0x0F#8, 0x11#8, 0x2F#8, 0x32#8, 0xFF#8],
      b ∉ [0x01#8, 0x02#8, 0x10#8, 0x20#8, 0x30#8, 0x31#8]) ∧
    (keyedState.issue { cmd := 0xFF#8, ops := someOps }).inbox =
      [.command { cmd := 0xFF#8, ops := someOps }] := by decide

theorem witness_StepRunsDecodedCommand :
    (keyedState.issue { cmd := 0x20#8, ops := someOps }).inbox =
        [.command { cmd := 0x20#8, ops := someOps }] ∧
      decode { cmd := 0x20#8, ops := someOps } = .ok (.gen 9) :=
  ⟨rfl, decode_commandByte .gen someOps⟩

theorem witness_ResetEventLeavesResetState :
    ({ keyedState with inbox := [.reset] } : State).inbox = [.reset] ∧
      ((.reset : HostEvent) = .reset ∨ ∃ r, (.reset : HostEvent) = .resetDuring r) ∧
      ({ keyedState with inbox := [.resetDuring (encode (.gen 9))] } : State).inbox =
        [.resetDuring (encode (.gen 9))] ∧
      ((.resetDuring (encode (.gen 9)) : HostEvent) = .reset ∨
        ∃ r, (.resetDuring (encode (.gen 9)) : HostEvent) = .resetDuring r) :=
  ⟨rfl, .inl rfl, rfl, .inr ⟨_, rfl⟩⟩

theorem witness_QuiescentStepChangesNothing : keyedState.inbox = [] := rfl

theorem witness_ClearActsAsReset :
    ({ keyedState with inbox := [.reset] } : State).inbox = [.reset] ∧
      ∃ u, step { keyedState with inbox := [.reset] } = .next u := ⟨rfl, _, rfl⟩

theorem witness_SwapExchangesCells :
    Memory.wf ksaFill = true ∧ (0x02#8 : Byte) ≠ 0x00#8 ∧ (0x02#8 : Byte) ≠ 0xFF#8 :=
  ⟨wf_ofFn fun a => a, by decide⟩

theorem witness_KsaRoundUpdates :
    ([0x4B#8] : List Byte) ≠ [] ∧ ∃ m' kj', ksaRound [0x4B#8] 0x00#8 (ksaFill, 0#8) = (m', kj') :=
  ⟨by decide, _, _, rfl⟩

/-- A bound met exactly, and a bound missed by one. -/
theorem witness_InBound : InBound (some 1) 1 ∧ ¬ InBound (some 1) 2 ∧ InBound none 256 :=
  ⟨fun b h => by cases h; decide, fun h => absurd (h 1 rfl) (by decide), inBound_none 256⟩

/-- Also for SchedProperties, with two different states. -/
theorem witness_SchedSchedulesKey :
    ([0x4B#8] : List Byte) ≠ [] ∧
      InBound boundedState.params.keyMax ([0x4B#8] : List Byte).length ∧
      InBound State.reset.params.keyMax ([0x4B#8] : List Byte).length :=
  ⟨by decide, witness_InBound.1, inBound_none 1⟩

theorem witness_SchedProperties :
    ([0x4B#8] : List Byte) ≠ [] ∧
      InBound boundedState.params.keyMax ([0x4B#8] : List Byte).length ∧
      InBound spentState.params.keyMax ([0x4B#8] : List Byte).length ∧ boundedState ≠ spentState :=
  ⟨by decide, witness_InBound.1, inBound_none 1,
    fun h => absurd (congrArg State.phase h) (by decide)⟩

theorem witness_RepeatedKeySchedulesSame : ([0x4B#8] : List Byte) ≠ [] ∧ 1 ≤ 7 := by decide

/-- A key of 256 bytes and the key with a byte more. -/
theorem witness_LongKeyTailNeverRead :
    256 ≤ (List.replicate 256 0x4B#8).length ∧
      256 ≤ (List.replicate 256 0x4B#8 ++ [0x01#8]).length ∧
      (List.replicate 256 0x4B#8).take 256 =
        (List.replicate 256 0x4B#8 ++ [0x01#8]).take 256 ∧
      List.replicate 256 0x4B#8 ≠ List.replicate 256 0x4B#8 ++ [0x01#8] := by decide +kernel

theorem witness_FirstRoundsClosedForm :
    ∀ r < 6, Memory.read (ksaRounds [0x4B#8] r).1 (trunc8 r) = trunc8 r := by decide +kernel

/-- GEN admitted at the edge of LEN_MAX; also for GenZeroCount, CursorsAfterGen, StartZeroesCursors. -/
theorem witness_GenGeneratesKeystream :
    boundedState.phase = .keyed ∧ InBound boundedState.params.lenMax 2 ∧
      ¬ InBound boundedState.params.lenMax 3 :=
  ⟨rfl, fun b h => by cases h; decide, fun h => absurd (h 2 rfl) (by decide)⟩

theorem witness_GenZeroCount : keyedState.phase = .keyed := rfl

theorem witness_CursorsAfterGen :
    keyedState.phase = .keyed ∧ InBound keyedState.params.lenMax 257 := ⟨rfl, inBound_none 257⟩

theorem witness_StartZeroesCursors :
    boundedState.phase = .keyed ∧ InBound boundedState.params.lenMax 2 ∧
      ([0x4B#8] : List Byte) ≠ [] ∧ ([0x41#8, 0x42#8] : List Byte) ≠ [] ∧
      InBound boundedState.params.keyMax ([0x4B#8] : List Byte).length ∧
      InBound boundedState.params.lenMax ([0x41#8, 0x42#8] : List Byte).length :=
  ⟨rfl, witness_GenGeneratesKeystream.2.1, by decide, by decide, witness_InBound.1,
    witness_GenGeneratesKeystream.2.1⟩

theorem witness_PrgaRoundUpdates :
    ∃ q, prgaAdvance keyedState.perm = q ∧ (0x00#8 : Byte) ≠ q.i ∧ (0x00#8 : Byte) ≠ q.j :=
  ⟨_, rfl, by decide +kernel, by decide +kernel⟩

/-- The first round on the identity is a self-swap. -/
theorem witness_SelfSwapRound :
    ∃ q, prgaAdvance (prgaStart keyedState.perm) = q ∧ q.i = q.j := ⟨_, rfl, by decide +kernel⟩

theorem witness_OneGenerationPerSchedule :
    spentState.phase ≠ .keyed ∧ State.reset.phase ≠ .keyed ∧
      ∃ t ks, exec (.gen 1) keyedState = .next t ∧ Answers keyedState t (.ok ks) :=
  ⟨by decide, by decide, _, _,
    exec_admitted (i := .gen 1) (checkGen_eq_none.2 ⟨rfl, inBound_none 1⟩), rfl⟩

theorem witness_GenPrefixProperty :
    keyedState.phase = .keyed ∧ boundedState.phase = .keyed ∧ 2 ≤ 9 ∧
      (∀ a, Memory.read keyedState.perm.S a = Memory.read boundedState.perm.S a) ∧
      InBound keyedState.params.lenMax 9 ∧ InBound boundedState.params.lenMax 2 :=
  ⟨rfl, rfl, by decide, fun _ => rfl, inBound_none 9, witness_GenGeneratesKeystream.2.1⟩

/-- Each clause of XorcCombines: admitted at the edge of LEN_MAX, mismatched, and one byte too long. -/
theorem witness_XorcCombines :
    ([1#8, 2#8] : List Byte).length = ([3#8, 4#8] : List Byte).length ∧
      InBound boundedState.params.lenMax ([1#8, 2#8] : List Byte).length ∧
      ([] : List Byte).length ≠ ([3#8] : List Byte).length ∧
      ([1#8, 2#8, 3#8] : List Byte).length = ([3#8, 4#8, 5#8] : List Byte).length ∧
      ¬ InBound boundedState.params.lenMax ([1#8, 2#8, 3#8] : List Byte).length ∧
      InBound boundedState.params.lenMax 1 ∧
      ([1#8, 2#8] : List Byte)[1]? = some 2#8 ∧ ([3#8, 4#8] : List Byte)[1]? = some 4#8 :=
  ⟨rfl, witness_GenGeneratesKeystream.2.1, by decide, rfl, witness_GenGeneratesKeystream.2.2,
    fun b h => by cases h; decide, rfl, rfl⟩

theorem witness_XorcInvolution :
    ([1#8, 2#8] : List Byte).length = ([3#8, 4#8] : List Byte).length ∧
      InBound boundedState.params.lenMax ([1#8, 2#8] : List Byte).length :=
  ⟨rfl, witness_GenGeneratesKeystream.2.1⟩

/-- CRYPT at the edges of both bounds; also for CryptIsSchedGenXorc and, with the reset state as the
second, for CryptRoundTrip. -/
theorem witness_CryptEncrypts :
    ([0x4B#8] : List Byte) ≠ [] ∧ ([0x41#8, 0x42#8] : List Byte) ≠ [] ∧
      InBound boundedState.params.keyMax ([0x4B#8] : List Byte).length ∧
      InBound boundedState.params.lenMax ([0x41#8, 0x42#8] : List Byte).length :=
  ⟨by decide, by decide, witness_InBound.1, witness_GenGeneratesKeystream.2.1⟩

theorem witness_CryptIsSchedGenXorc :
    ([0x4B#8] : List Byte) ≠ [] ∧ ([0x41#8] : List Byte) ≠ [] ∧
      InBound spentState.params.keyMax ([0x4B#8] : List Byte).length ∧
      InBound spentState.params.lenMax ([0x41#8] : List Byte).length :=
  ⟨by decide, by decide, inBound_none 1, inBound_none 1⟩

theorem witness_CryptRoundTrip :
    ([0x4B#8] : List Byte) ≠ [] ∧ ([0x41#8, 0x42#8] : List Byte) ≠ [] ∧
      InBound boundedState.params.keyMax ([0x4B#8] : List Byte).length ∧
      InBound boundedState.params.lenMax ([0x41#8, 0x42#8] : List Byte).length ∧
      InBound State.reset.params.keyMax ([0x4B#8] : List Byte).length ∧
      InBound State.reset.params.lenMax ([0x41#8, 0x42#8] : List Byte).length :=
  ⟨by decide, by decide, witness_InBound.1, witness_GenGeneratesKeystream.2.1, inBound_none 1,
    inBound_none 2⟩

/-- A CRYPT that answers `Ok`, for any data of a byte. -/
theorem crypt_admitted (s : State) (d : Byte) (hk : InBound s.params.keyMax 1)
    (hd : InBound s.params.lenMax 1) :
    exec (.crypt [0x4B#8] [d]) s = .next (admitted (.crypt [0x4B#8] [d]) s) :=
  exec_admitted (i := .crypt [0x4B#8] [d])
    (checkCrypt_eq_none.2 ⟨by simp, by simp, hk, hd⟩)

theorem witness_LengthPreserved :
    (∃ t out, exec (.crypt [0x4B#8] [0x41#8]) keyedState = .next t ∧
      Answers keyedState t (.ok out)) ∧
    ∃ t out, exec (.xorc [0x41#8] [0x25#8]) keyedState = .next t ∧
      Answers keyedState t (.ok out) :=
  ⟨⟨_, _, crypt_admitted _ _ (inBound_none 1) (inBound_none 1), rfl⟩, _, _, rfl, rfl⟩

theorem witness_KeystreamIndependence :
    ([0x41#8] : List Byte).length = ([0xFF#8] : List Byte).length ∧
      (∃ t o, exec (.crypt [0x4B#8] [0x41#8]) keyedState = .next t ∧
        Answers keyedState t (.ok o)) ∧
      ∃ t o, exec (.crypt [0x4B#8] [0xFF#8]) spentState = .next t ∧
        Answers spentState t (.ok o) :=
  ⟨rfl, ⟨_, _, crypt_admitted _ _ (inBound_none 1) (inBound_none 1), rfl⟩, _, _,
    crypt_admitted _ _ (inBound_none 1) (inBound_none 1), rfl⟩

theorem witness_CryptIgnoresPriorState :
    keyedState.params = spentState.params ∧ keyedState ≠ spentState :=
  ⟨rfl, fun h => absurd (congrArg State.phase h) (by decide)⟩

/-- SCHED and CRYPT with an empty key; also for RefusalChangesNothing. -/
theorem witness_EmptyKeyRefused :
    (∃ t, exec (.sched []) keyedState = .next t ∧ Answers keyedState t (.err .invalidKey)) ∧
    (∃ t, exec (.crypt [] [0x41#8]) keyedState = .next t ∧
      Answers keyedState t (.err .invalidKey)) ∧
    ([0x00#8] : List Byte) ≠ [] ∧ InBound boundedState.params.keyMax ([0x00#8] : List Byte).length ∧
    ([0x41#8, 0x42#8] : List Byte) ≠ [] ∧
    InBound boundedState.params.lenMax ([0x41#8, 0x42#8] : List Byte).length :=
  ⟨⟨_, rfl, rfl⟩, ⟨_, rfl, rfl⟩, by decide, witness_InBound.1, by decide,
    witness_GenGeneratesKeystream.2.1⟩

theorem witness_LengthMismatchOnlyFromXorc :
    ([0x41#8, 0x42#8] : List Byte).length ≠ ([0x25#8] : List Byte).length ∧ ∃ t, exec (.xorc [0x41#8, 0x42#8] [0x25#8]) keyedState = .next t ∧
      Answers keyedState t (.err .lengthMismatch) := ⟨by decide, _, rfl, rfl⟩

theorem witness_EmptyDataRefused :
    ∃ t, exec (.crypt [0x4B#8] []) keyedState = .next t ∧
      Answers keyedState t (.err .emptyInput) := ⟨_, rfl, rfl⟩

/-- Each clause of ChecksInOrder, one step beyond each bound; the first checks fail beside later ones. -/
theorem witness_ChecksInOrder :
    (0x32#8 : Byte) ∉ [0x01#8, 0x02#8, 0x10#8, 0x20#8, 0x30#8, 0x31#8] ∧
      ([1#8, 2#8] : List Byte) ≠ [] ∧
      ¬ InBound boundedState.params.keyMax ([1#8, 2#8] : List Byte).length ∧
      ({ boundedState with phase := .spent } : State).phase ≠ .keyed ∧
      boundedState.phase = .keyed ∧ ¬ InBound boundedState.params.lenMax 3 ∧
      ([1#8, 2#8, 3#8] : List Byte).length ≠ ([4#8, 5#8, 6#8, 7#8] : List Byte).length ∧
      ([1#8, 2#8, 3#8] : List Byte).length = ([4#8, 5#8, 6#8] : List Byte).length ∧
      ¬ (InBound boundedState.params.keyMax ([1#8] : List Byte).length ∧
        InBound boundedState.params.lenMax ([1#8, 2#8, 3#8] : List Byte).length) :=
  ⟨by decide, by decide, witness_InBound.2.1, by decide, rfl, witness_GenGeneratesKeystream.2.2,
    by decide, rfl, fun h => witness_GenGeneratesKeystream.2.2 h.2⟩

theorem witness_NoRangeRefusalAtDefaults :
    keyedState.params = Config.Params.default ∧ ∃ t, exec (.gen 0) keyedState = .next t :=
  ⟨rfl, _, exec_admitted (i := .gen 0) (checkGen_eq_none.2 ⟨rfl, inBound_none 0⟩)⟩

theorem witness_RefusalChangesNothing :
    ∃ t, exec (.gen 1) spentState = .next t ∧ Answers spentState t (.err .notKeyed) :=
  ⟨_, rfl, rfl⟩

/-- Each clause of AdmittedCommandAnswersOk, at the edges of the bounds. -/
theorem witness_AdmittedCommandAnswersOk :
    (([0x4B#8] : List Byte) ≠ [] ∧
      InBound boundedState.params.keyMax ([0x4B#8] : List Byte).length) ∧
    (boundedState.phase = .keyed ∧ InBound boundedState.params.lenMax 2) ∧
    (([] : List Byte).length = ([] : List Byte).length ∧
      InBound boundedState.params.lenMax ([] : List Byte).length) ∧
    (([0x4B#8] : List Byte) ≠ [] ∧ ([0x41#8, 0x42#8] : List Byte) ≠ [] ∧
      InBound boundedState.params.keyMax ([0x4B#8] : List Byte).length ∧
      InBound boundedState.params.lenMax ([0x41#8, 0x42#8] : List Byte).length) :=
  ⟨⟨by decide, witness_InBound.1⟩, ⟨rfl, witness_GenGeneratesKeystream.2.1⟩,
    ⟨rfl, fun b _ => Nat.zero_le b⟩, witness_CryptEncrypts⟩

theorem witness_KindsAndCodes :
    (∃ t, step (keyedState.issue { cmd := 0x00#8, ops := someOps }) = .next t) ∧
      ∃ t, exec .stat keyedState = .next t := ⟨⟨_, rfl⟩, _, rfl⟩

/-- `Ok` and `Err` from commands; also for CommandFrame, whose two other clauses STAT and XORC meet. -/
theorem witness_PhaseTable :
    (∃ t p, exec (.gen 1) keyedState = .next t ∧ Answers keyedState t (.ok p)) ∧
      ∃ t, exec (.gen 1) spentState = .next t ∧ Answers spentState t (.err .notKeyed) :=
  ⟨witness_OneGenerationPerSchedule.2.2, _, rfl, rfl⟩

theorem witness_CommandFrame :
    (∃ t, exec (.xorc [0x41#8] [0x25#8]) keyedState = .next t) ∧
      (∃ t, exec .stat keyedState = .next t) ∧
      (∃ t, exec .clear keyedState = .next t) ∧ Instr.stat ≠ .clear :=
  ⟨⟨_, rfl⟩, ⟨_, rfl⟩, ⟨_, rfl⟩, by decide⟩

/-- A KEYED state whose store is a permutation and canonical, and a step from it; also for
CanonicalStoreKept. -/
theorem witness_PermutationInvariantKept :
    (keyedState.issue (encode .stat)).PermInv ∧ (keyedState.issue (encode .stat)).MemInv ∧
      (∃ t, step (keyedState.issue (encode .stat)) = .next t) ∧ IsPermutation keyedState.perm.S ∧
      ([0x4B#8] : List Byte) ≠ [] ∧
      InBound boundedState.params.keyMax ([0x4B#8] : List Byte).length :=
  ⟨fun _ => isPermutation_ksaFill, wf_ofFn fun a => a, ⟨_, rfl⟩, isPermutation_ksaFill, by decide,
    witness_InBound.1⟩

theorem witness_CanonicalStoreKept :
    (keyedState.issue (encode .stat)).MemInv ∧
      ∃ t, step (keyedState.issue (encode .stat)) = .next t :=
  ⟨wf_ofFn fun a => a, _, rfl⟩

/-- Two states alike to the host that differ in the store and in both cursors. -/
theorem witness_HiddenStateNeverShows :
    SameView (spentState.issue (encode .stat))
        (({ spentState with perm := { S := [], i := 9#8, j := 9#8 } } : State).issue
          (encode .stat)) ∧
      (∃ t, step (spentState.issue (encode .stat)) = .next t) ∧
      ∃ t, step (({ spentState with perm := { S := [], i := 9#8, j := 9#8 } } : State).issue
        (encode .stat)) = .next t :=
  ⟨⟨rfl, rfl, rfl, rfl, fun h => nomatch h⟩, ⟨_, rfl⟩, _, rfl⟩

theorem witness_HexDecoding :
    hexDecode ['4', 'b'] = some [0x4B#8] ∧ digitValue '4' = some 4 ∧ digitValue 'b' = some 11 ∧
      digitValue 'G' = none := by decide

/-- The characters of the scenario of 44_codec_boundary.md R189. -/
def scenarioText : Text := ['H', 'E', 'L', 'L', 'O']

/-- The characters of its key. -/
def scenarioKey : Text := ['S', 'E', 'C', 'R', 'E', 'T', 'K', 'E', 'Y']

/-- That scenario, under both policies. -/
theorem witness_EncryptDecryptRoundTrip :
    (scenarioText ≠ [] ∧ scenarioKey ≠ []) ∧
      (∀ c ∈ scenarioText, c.toNat ≤ 255) ∧
      rejects .reject scenarioKey = false ∧ rejects .truncate scenarioKey = false ∧
      InBound State.reset.params.keyMax scenarioKey.length ∧
      InBound State.reset.params.lenMax scenarioText.length :=
  ⟨by decide, by simp [scenarioText], by decide, rfl, inBound_none _, inBound_none _⟩

theorem witness_HostChecksComeFirst :
    ['K'] ≠ [] ∧ ['1', 'G'] ≠ [] ∧ hexDecode ['1', 'G'] = none := by decide

theorem witness_HostOperationsExpand :
    scenarioText ≠ [] ∧ scenarioKey ≠ [] ∧ hexDecode ['6', '4'] = some [0x64#8] ∧
      InBound State.reset.params.keyMax scenarioKey.length ∧
      InBound State.reset.params.lenMax scenarioText.length ∧
      InBound boundedState.params.keyMax ['K'].length ∧
      InBound boundedState.params.lenMax ([0x64#8, 0x64#8] : List Byte).length :=
  ⟨by decide, by decide, by decide, inBound_none _, inBound_none _, witness_InBound.1,
    witness_GenGeneratesKeystream.2.1⟩

/-- A character just above the bound, in the plaintext and in the key. -/
theorem witness_CharPolicyGoverns :
    (∃ c ∈ ['K'] ++ [Char.ofNat 256], 255 < c.toNat) ∧ (∃ c ∈ [Char.ofNat 256], 255 < c.toNat) ∧
      [Char.ofNat 256] ≠ [] ∧ hexDecode ['6', '4'] ≠ none ∧
      rejects .reject [Char.ofNat 255] = false :=
  ⟨⟨Char.ofNat 256, by simp, by decide⟩, ⟨Char.ofNat 256, by simp, by decide⟩, by simp, by decide,
    by decide⟩

end Sys2Proof.Tests
end

section
/-! The permutation invariant (10_state.md R23): every command, the reset and the refusal of a reserved
byte keep it, so every step does. -/

namespace Sys2Proof.Machine

open Sys2Proof.Laws

/-! ## The runs of the generator -/

theorem isPermutation_prgaRun {p : PermutationState} (h : IsPermutation p.S) (n : Nat) :
    IsPermutation (prgaRun n p).1.S := by
  rw [prgaRun_state]
  exact isPermutation_iterate h n

theorem isPermutation_cryptRun {p : PermutationState} (h : IsPermutation p.S) (data : List Byte) :
    IsPermutation (cryptRun data p).1.S := by
  rw [cryptRun_eq]
  exact isPermutation_prgaRun h data.length

/-! ## The effects of a step -/

/-- The invariant speaks of the phase and the store only, and a refusal writes neither. -/
theorem permInv_raise {s : State} (k : ErrKind) (h : s.PermInv) : (s.raise k).PermInv := h

/-- A reset leaves an unspecified store, which the invariant allows in IDLE (R34). -/
theorem permInv_discard (s : State) : s.discard.PermInv :=
  fun hne => absurd (discard_phase s) hne

/-- GEN rests on its check: it is admitted in KEYED only, where the store is a permutation already. SCHED
and CRYPT schedule a permutation of their own. -/
theorem permInv_admitted {i : Instr} {s : State} (hc : checkOf i s = none) (h : s.PermInv) :
    (admitted i s).PermInv := by
  cases i with
  | stat => exact h
  | clear => exact permInv_discard s
  | sched key => exact fun _ => isPermutation_schedule key
  | gen count =>
    obtain ⟨hkeyed, -⟩ := checkGen_eq_none.1 hc
    have hperm : IsPermutation s.perm.S := h (by simp [hkeyed])
    exact fun _ => isPermutation_prgaRun (p := prgaStart s.perm) hperm count
  | xorc data ks => exact h
  | crypt key data =>
    exact fun _ =>
      isPermutation_cryptRun (p := prgaStart (schedule key)) (isPermutation_schedule key) data

theorem permInv_exec {i : Instr} {s t : State} (h : s.PermInv) (he : exec i s = .next t) :
    t.PermInv := by
  rcases exec_next.1 he with ⟨k, -, rfl⟩ | ⟨hc, rfl⟩
  · exact permInv_raise k h
  · exact permInv_admitted hc h

theorem permInv_step {s t : State} (h : s.PermInv) (hs : step s = .next t) : t.PermInv := by
  obtain ⟨-, he⟩ | ⟨r, rest, i, -, -, he⟩ | ⟨r, rest, k, -, -, he⟩ | ⟨e, rest, -, -, he⟩ :=
    step_cases s <;> rw [he] at hs
  · obtain rfl : s = t := by simpa using hs
    exact h
  · have hrest : ({ s with inbox := rest } : State).PermInv := h
    exact permInv_exec hrest hs
  · obtain rfl : ({ s with inbox := rest } : State).raise k = t := by simpa using hs
    exact permInv_raise k h
  · obtain rfl : ({ s with inbox := rest } : State).discard = t := by simpa using hs
    exact permInv_discard _

/-! ## SCHED -/

/-- A key that SCHED admits is answered with a permutation in the store (40_ksa.md R110, R117). -/
theorem exec_sched_isPermutation {s : State} {key : List Byte} (hne : key ≠ [])
    (hmax : InBound s.params.keyMax key.length) :
    ∃ t, exec (.sched key) s = .next t ∧ IsPermutation t.perm.S :=
  ⟨admitted (.sched key) s, exec_admitted (checkSched_eq_none.2 ⟨hne, hmax⟩),
    isPermutation_schedule key⟩

/-- Settles O48: the step keeps the invariant case by case; a round of SCHED or GEN is a swap, which keeps
a permutation. -/
theorem permutationInvariantKept : Obligations.PermutationInvariantKept :=
  ⟨fun _ _ => permInv_step, isPermutation_ksaRounds, fun _ => isPermutation_prgaAdvance,
    fun _ _ => exec_sched_isPermutation⟩

end Sys2Proof.Machine
end

section
/-! The key schedule (40_ksa.md): the identity fill, and what SCHED leaves, which is written from the key
alone. -/

namespace Sys2Proof.Machine

open Sys2Proof.Laws

/-- Settles O13: the fill lists each cell with its own index, and a round is a swap, which keeps the
permutation the fill is. -/
theorem fillIsIdentity : Obligations.FillIsIdentity :=
  ⟨read_ksaFill, fun _ => rfl, isPermutation_ksaRounds⟩

/-- A key that passes the check of SCHED has its effect (40_ksa.md R110). -/
theorem exec_sched_admitted {s : State} {key : List Byte} (hne : key ≠ [])
    (hmax : InBound s.params.keyMax key.length) :
    exec (.sched key) s = .next (admitted (.sched key) s) :=
  exec_admitted (checkSched_eq_none.2 ⟨hne, hmax⟩)

/-- The PermutationState SCHED leaves is a function of the key (40_ksa.md R117). -/
theorem admitted_sched_perm (key : List Byte) (s : State) :
    (admitted (.sched key) s).perm = schedule key := rfl

/-- SCHED answers with no payload (40_ksa.md R110). -/
theorem admitted_sched_answers (key : List Byte) (s : State) :
    Answers s (admitted (.sched key) s) (.ok []) := rfl

theorem admitted_sched_freeCount (key : List Byte) (s : State) :
    (admitted (.sched key) s).freeCount = s.freeCount := rfl

/-- Settles O17: both states pass the check, and the effect writes the schedule of the key and the phase
KEYED over whatever stood there, adds the empty `Ok` and touches no other field. -/
theorem schedProperties : Obligations.SchedProperties := by
  intro s₁ s₂ key hne hmax₁ hmax₂
  refine ⟨admitted (.sched key) s₁, admitted (.sched key) s₂, exec_sched_admitted hne hmax₁,
    exec_sched_admitted hne hmax₂, ?perm, ?samePerm, ?samePhase, admitted_sched_answers key s₁,
    admitted_params _ s₁, admitted_inbox _ s₁, admitted_sched_freeCount key s₁⟩
  case perm => exact isPermutation_schedule key
  case samePerm => rw [admitted_sched_perm, admitted_sched_perm]
  case samePhase => rw [admitted_phase, admitted_phase]

end Sys2Proof.Machine
end

section
/-! The generator (41_prga.md): what an admitted GEN leaves and answers, and that its rounds, like those of
CRYPT, run from cursors 0. -/

namespace Sys2Proof.Machine

open Sys2Proof.Laws

/-- A GEN that passes its checks has its effect (41_prga.md R130). -/
theorem exec_gen_admitted {s : State} {n : Nat} (hkeyed : s.phase = .keyed)
    (hmax : InBound s.params.lenMax n) : exec (.gen n) s = .next (admitted (.gen n) s) :=
  exec_admitted (checkGen_eq_none.2 ⟨hkeyed, hmax⟩)

/-- A CRYPT that passes its checks has its effect (42_cipher_engine.md R154). -/
theorem exec_crypt_admitted {s : State} {key data : List Byte} (hkey : key ≠ []) (hdata : data ≠ [])
    (hkmax : InBound s.params.keyMax key.length) (hdmax : InBound s.params.lenMax data.length) :
    exec (.crypt key data) s = .next (admitted (.crypt key data) s) :=
  exec_admitted (checkCrypt_eq_none.2 ⟨hkey, hdata, hkmax, hdmax⟩)

/-! ## The run from the start -/

/-- The cells after `n` rounds from the start are those of the reference (41_prga.md R133). -/
theorem read_prgaRun_start (p : PermutationState) (n : Nat) (a : Byte) :
    Memory.read (prgaRun n (prgaStart p)).1.S a = (Reference.prga (Memory.read p.S) n).1 a := by
  rw [prgaRun_state]
  exact (iterate_eq_reference (fun _ => rfl) n).1 a

/-- The cursors after `n` rounds from the start are those of the reference (41_prga.md R132, R133). -/
theorem prgaRun_start_cursors (p : PermutationState) (n : Nat) :
    (prgaRun n (prgaStart p)).1 =
      { S := (prgaRun n (prgaStart p)).1.S
        i := BitVec.ofNat 8 n
        j := (Reference.prga (Memory.read p.S) n).2 } := by
  obtain ⟨-, hi, hj⟩ := iterate_eq_reference (p := p) (fun _ => rfl) n
  rw [prgaRun_state, ← hi, ← hj]

/-- The start forgets both cursors (41_prga.md R132). -/
theorem prgaStart_of_cursors (p : PermutationState) (x y : Byte) :
    prgaStart { p with i := x, j := y } = prgaStart p := rfl

/-- GEN reads the store through the start only, so what it leaves and answers does not depend on the
cursors it finds (41_prga.md R132). -/
theorem admitted_gen_of_cursors (n : Nat) (s : State) (x y : Byte) :
    admitted (.gen n) { s with perm := { s.perm with i := x, j := y } } = admitted (.gen n) s := by
  simp only [admitted, prgaStart_of_cursors]

/-- CRYPT replaces store and cursors by the schedule of its key (42_cipher_engine.md R154). -/
theorem admitted_crypt_of_perm (key data : List Byte) (s : State) (p : PermutationState) :
    admitted (.crypt key data) { s with perm := p } = admitted (.crypt key data) s := rfl

/-! ## GEN and the start -/

/-- Settles O25: GEN passes its checks, and each part of its effect is the run from the start, which is the
reference's in its cursors, its bytes and its cells. -/
theorem genGeneratesKeystream : Obligations.GenGeneratesKeystream := by
  intro s n hkeyed hmax
  refine ⟨(prgaRun n (prgaStart s.perm)).1.S, (prgaRun n (prgaStart s.perm)).2, ?next,
    prgaRun_eq_keystream (fun _ => rfl) n, prgaRun_length n _, read_prgaRun_start s.perm n⟩
  case next =>
    rw [exec_gen_admitted hkeyed hmax, ← prgaRun_start_cursors]
    rfl

/-- Settles O22: an admitted GEN or CRYPT is its effect, written with the run from the start; the checks
do not read the cursors, and the effect forgets them. -/
theorem startZeroesCursors : Obligations.StartZeroesCursors := by
  refine ⟨fun _ => rfl, ?gen, ?crypt, ?genCursors, ?cryptCursors⟩
  case gen => exact fun s n hkeyed hmax => exec_gen_admitted hkeyed hmax
  case crypt =>
    exact fun s key data hkey hdata hkmax hdmax => exec_crypt_admitted hkey hdata hkmax hdmax
  case genCursors =>
    intro s n x y hkeyed hmax
    rw [exec_gen_admitted hkeyed hmax, ← admitted_gen_of_cursors n s x y]
    exact exec_gen_admitted hkeyed hmax
  case cryptCursors =>
    intro s key data x y hkey hdata hkmax hdmax
    rw [exec_crypt_admitted hkey hdata hkmax hdmax,
      ← admitted_crypt_of_perm key data s { s.perm with i := x, j := y }]
    exact exec_crypt_admitted hkey hdata hkmax hdmax

end Sys2Proof.Machine
end

section
/-! The CipherEngine (42_cipher_engine.md): what XORC combines and refuses, and what CRYPT answers, which is
written from the key and the data alone. -/

namespace Sys2Proof.Machine

open Sys2Proof.Laws

/-! ## Combining -/

/-- Combining acts position by position (42_cipher_engine.md R150). -/
theorem xorBytes_getElem? {data ks : List Byte} {k : Nat} {d b : Byte} (hd : data[k]? = some d)
    (hb : ks[k]? = some b) : (xorBytes data ks)[k]? = some (d ^^^ b) := by
  simp [xorBytes, List.getElem?_zipWith, hd, hb, xor8]

theorem xorBytes_length {data ks : List Byte} (h : data.length = ks.length) :
    (xorBytes data ks).length = data.length := by
  simp [xorBytes, h]

/-- Equal bytes cancel (42_cipher_engine.md R153). -/
theorem xor8_twice (d b : Byte) : xor8 (xor8 d b) b = d := by
  simp [xor8]

theorem cryptRun_length (data : List Byte) (p : PermutationState) :
    (cryptRun data p).2.length = data.length := by
  rw [cryptRun_eq]
  exact xorBytes_length (prgaRun_length data.length p).symm

/-- The keystream depends on the number of bytes only, so two runs from one state combine with the same
bytes and cancel (42_cipher_engine.md R158). -/
theorem cryptRun_twice (data : List Byte) (p : PermutationState) :
    (cryptRun (cryptRun data p).2 p).2 = data := by
  rw [cryptRun_eq (cryptRun data p).2, cryptRun_length, cryptRun_eq]
  exact xorBytes_twice (prgaRun_length data.length p).symm

/-! ## XORC -/

/-- The byte of XORC (30_encoding.md R82). -/
theorem encode_xorc_cmd (data ks : List Byte) : (encode (.xorc data ks)).cmd = 0x30#8 :=
  show commandByte .xorc = 0x30#8 by decide

/-- An XORC that passes its checks has its effect (42_cipher_engine.md R150). -/
theorem exec_xorc_admitted {s : State} {data ks : List Byte} (hlen : data.length = ks.length)
    (hmax : InBound s.params.lenMax data.length) :
    exec (.xorc data ks) s = .next (admitted (.xorc data ks) s) :=
  exec_admitted (checkXorc_eq_none.2 ⟨hlen, hmax⟩)

/-- The length check of XORC comes first (42_cipher_engine.md R150, R152). -/
theorem checkXorc_lengthMismatch {p : Config.Params} {data ks : List Byte}
    (hlen : data.length ≠ ks.length) : checkXorc p data ks = some .lengthMismatch := by
  simp [checkXorc, hlen]

theorem checkXorc_operandRange {p : Config.Params} {data ks : List Byte}
    (hlen : data.length = ks.length) (hmax : ¬ InBound p.lenMax data.length) :
    checkXorc p data ks = some .operandRange := by
  have hexceeds : exceeds p.lenMax data.length = true := exceeds_eq_true.2 hmax
  rw [checkXorc, if_neg (not_not.2 hlen), if_pos hexceeds]

theorem admitted_xorc_answers (data ks : List Byte) (s : State) :
    Answers s (admitted (.xorc data ks) s) (.ok (xorBytes data ks)) := rfl

/-- Settles O30: the effect of XORC is to answer with the combined bytes; a refusal only answers its kind;
the check reads no phase. -/
theorem xorcCombines : Obligations.XorcCombines := by
  refine ⟨encode_xorc_cmd, ?combined, ?mismatch, ?range, ?sample⟩
  case combined =>
    intro s data ks hlen hmax
    exact ⟨xorBytes data ks, exec_xorc_admitted hlen hmax, xorBytes_length hlen,
      fun _ _ _ => xorBytes_getElem?⟩
  case mismatch =>
    intro s data ks hlen
    exact exec_refused (i := .xorc data ks) (checkXorc_lengthMismatch hlen)
  case range =>
    intro s data ks hlen hmax
    exact exec_refused (i := .xorc data ks) (checkXorc_operandRange hlen hmax)
  case sample => exact fun s hmax => exec_xorc_admitted rfl hmax

/-- Settles O31: the first XORC answers as many bytes as the data and leaves the parameters, so the second
passes its checks too, and equal keystreams cancel. -/
theorem xorcInvolution : Obligations.XorcInvolution := by
  refine ⟨xor8_twice, fun s data ks hlen hmax => ?_⟩
  have hlenOut : (xorBytes data ks).length = data.length := xorBytes_length hlen
  refine ⟨admitted (.xorc data ks) s, admitted (.xorc (xorBytes data ks) ks)
    (admitted (.xorc data ks) s), xorBytes data ks, exec_xorc_admitted hlen hmax,
    admitted_xorc_answers data ks s, ?second, ?back⟩
  case second =>
    apply exec_xorc_admitted
    · rw [hlenOut, hlen]
    · rwa [hlenOut, admitted_params]
  case back =>
    simpa only [xorBytes_twice hlen] using admitted_xorc_answers (xorBytes data ks) ks _

/-! ## CRYPT -/

/-- The bytes an admitted CRYPT answers (42_cipher_engine.md R154). -/
def cryptBytes (key data : List Byte) : List Byte := (cryptRun data (prgaStart (schedule key))).2

theorem cryptBytes_length (key data : List Byte) : (cryptBytes key data).length = data.length :=
  cryptRun_length data _

theorem cryptBytes_twice (key data : List Byte) : cryptBytes key (cryptBytes key data) = data :=
  cryptRun_twice data _

theorem admitted_crypt_answers (key data : List Byte) (s : State) :
    Answers s (admitted (.crypt key data) s) (.ok (cryptBytes key data)) := rfl

/-- An admitted CRYPT leaves store and cursors that do not depend on the state it finds (R157). -/
theorem admitted_crypt_perm (key data : List Byte) (s : State) :
    (admitted (.crypt key data) s).perm = (cryptRun data (prgaStart (schedule key))).1 := rfl

/-- The check of CRYPT reads the parameters and no other part of the state (42_cipher_engine.md R154). -/
theorem checkOf_crypt (key data : List Byte) (s : State) :
    checkOf (.crypt key data) s = checkCrypt s.params key data := rfl

/-- A command gives one answer. -/
theorem answers_unique {s t : State} {r₁ r₂ : Response} (h₁ : Answers s t r₁)
    (h₂ : Answers s t r₂) : r₁ = r₂ :=
  append_single_inj (h₁.symm.trans h₂)

/-- Settles O34: the first output is as long as the data, so the second CRYPT passes its checks, and it
combines with the same keystream. -/
theorem cryptRoundTrip : Obligations.CryptRoundTrip := by
  intro s₁ s₂ key data hkey hdata hkmax₁ hdmax₁ hkmax₂ hdmax₂
  have hlen : (cryptBytes key data).length = data.length := cryptBytes_length key data
  have hout : cryptBytes key data ≠ [] := by
    rwa [← List.length_pos_iff, hlen, List.length_pos_iff]
  refine ⟨admitted (.crypt key data) s₁, admitted (.crypt key (cryptBytes key data)) s₂,
    cryptBytes key data, exec_crypt_admitted hkey hdata hkmax₁ hdmax₁,
    admitted_crypt_answers key data s₁, exec_crypt_admitted hkey hout hkmax₂ (by rwa [hlen]), ?back⟩
  case back =>
    simpa only [cryptBytes_twice] using admitted_crypt_answers key (cryptBytes key data) s₂

/-- Settles O35: an `Ok` is the answer of an admitted command, whose payload is known. -/
theorem lengthPreserved : Obligations.LengthPreserved := by
  refine ⟨?crypt, ?xorc⟩
  case crypt =>
    intro s t key data out hexec hans
    obtain ⟨-, rfl⟩ := answers_ok hexec hans
    obtain rfl : out = cryptBytes key data := by
      simpa using answers_unique hans (admitted_crypt_answers key data s)
    exact cryptBytes_length key data
  case xorc =>
    intro s t data ks out hexec hans
    obtain ⟨hcheck, rfl⟩ := answers_ok hexec hans
    obtain ⟨hlen, -⟩ := checkXorc_eq_none.1 hcheck
    obtain rfl : out = xorBytes data ks := by
      simpa using answers_unique hans (admitted_xorc_answers data ks s)
    exact xorBytes_length hlen

/-- Settles O37: equal parameters give both states the same check; a refusal answers its kind, and the effect
of CRYPT answers and leaves what key and data alone determine. -/
theorem cryptIgnoresPriorState : Obligations.CryptIgnoresPriorState := by
  intro s₁ s₂ key data hparams
  have hsame : checkOf (.crypt key data) s₂ = checkOf (.crypt key data) s₁ := by
    rw [checkOf_crypt, checkOf_crypt, hparams]
  cases hcheck : checkOf (.crypt key data) s₁ with
  | some k =>
    exact ⟨s₁.raise k, s₂.raise k, .err k, exec_refused hcheck, exec_refused (hsame.trans hcheck),
      raise_outbox s₁ k, raise_outbox s₂ k, nofun⟩
  | none =>
    refine ⟨admitted (.crypt key data) s₁, admitted (.crypt key data) s₂, .ok (cryptBytes key data),
      exec_admitted hcheck, exec_admitted (hsame.trans hcheck), admitted_crypt_answers key data s₁,
      admitted_crypt_answers key data s₂, fun _ _ => ⟨?perm, ?phase⟩⟩
    case perm => rw [admitted_crypt_perm, admitted_crypt_perm]
    case phase => rw [admitted_phase, admitted_phase]

end Sys2Proof.Machine
end


section
/-! The Codec (44_codec_boundary.md): hex text and bytes convert back and forth, and ENCRYPT and DECRYPT with
operands the host lets through are one admitted CRYPT between two conversions. -/

namespace Sys2Proof.Machine

open Sys2Proof.Laws

/-! ## Hex text -/

/-- The digit of a half byte has that value (44_codec_boundary.md R183, R184). -/
theorem digitValue_hexDigit : ∀ v : BitVec 4, digitValue (hexDigit v) = some v.toNat := by
  decide

/-- A byte is 16 times its high half plus its low half. -/
theorem trunc8_halves (b : Byte) :
    trunc8 (16 * (b.extractLsb' 4 4).toNat + (b.extractLsb' 0 4).toNat) = b := by
  apply BitVec.eq_of_toNat_eq
  simp only [trunc8, BitVec.toNat_ofNat, BitVec.extractLsb'_toNat, Nat.shiftRight_eq_div_pow]
  omega

/-- The digits of a byte are read as that byte, before whatever follows. -/
theorem hexDecode_hexByte_append (b : Byte) (t : Text) :
    hexDecode (hexByte b ++ t) = (hexDecode t).map (b :: ·) := by
  rw [hexByte, List.cons_append, List.cons_append, List.nil_append, hexDecode, digitValue_hexDigit,
    digitValue_hexDigit]
  cases hexDecode t with
  | none => rfl
  | some bs => simp only [trunc8_halves, Option.map_some]

/-- Decoding undoes encoding (44_codec_boundary.md R183, R184; D18). -/
@[simp] theorem hexDecode_hexEncode (bs : List Byte) : hexDecode (hexEncode bs) = some bs := by
  induction bs with
  | nil => rfl
  | cons b bs ih =>
    calc hexDecode (hexEncode (b :: bs))
      _ = hexDecode (hexByte b ++ hexEncode bs) := by rw [hexEncode, List.flatMap_cons, hexEncode]
      _ = some (b :: bs) := by rw [hexDecode_hexByte_append, ih, Option.map_some]

/-- Two digits for each byte (44_codec_boundary.md R183). -/
@[simp] theorem hexEncode_length (bs : List Byte) : (hexEncode bs).length = 2 * bs.length := by
  have hbyte : ∀ b : Byte, (hexByte b).length = 2 := fun _ => rfl
  simp [hexEncode, List.length_flatMap, hbyte, Nat.mul_comm]

theorem hexEncode_ne_nil {bs : List Byte} (h : bs ≠ []) : hexEncode bs ≠ [] := by
  rw [← List.length_pos_iff, hexEncode_length]
  exact Nat.mul_pos two_pos (List.length_pos_iff.2 h)

/-! ## Characters -/

/-- Codes of one byte survive the conversion (44_codec_boundary.md R181, R185). -/
theorem bytesText_textBytes {t : Text} (h : ∀ c ∈ t, c.toNat ≤ 255) :
    bytesText (textBytes t) = t := by
  have hchar : ∀ c ∈ t, Char.ofNat (trunc8 c.toNat).toNat = c := by
    intro c hc
    rw [trunc8, BitVec.toNat_ofNat, Nat.mod_eq_of_lt (Nat.lt_succ_of_le (h c hc)), Char.ofNat_toNat]
  rw [bytesText, textBytes, List.map_map]
  exact (List.map_congr_left hchar).trans (List.map_id t)

@[simp] theorem textBytes_eq_nil {t : Text} : textBytes t = [] ↔ t = [] := List.map_eq_nil_iff

/-- Neither policy turns away codes of one byte (44_codec_boundary.md R182). -/
theorem rejects_eq_false {policy : Config.CharPolicy} {t : Text} (h : ∀ c ∈ t, c.toNat ≤ 255) :
    rejects policy t = false := by
  cases policy with
  | truncate => rfl
  | reject =>
    rw [← Bool.not_eq_true, rejects_reject]
    rintro ⟨c, hc, hgt⟩
    exact Nat.not_lt.2 (h c hc) hgt

/-! ## The host's operations -/

/-- An admitted CRYPT gives the host its bytes as text (44_codec_boundary.md R187, R188). -/
theorem hostCrypt_admitted {toText : List Byte → Text} {key data : List Byte} {s : State}
    (hkey : key ≠ []) (hdata : data ≠ []) (hkmax : InBound s.params.keyMax key.length)
    (hdmax : InBound s.params.lenMax data.length) :
    hostCrypt toText key data s =
      (.ok (toText (cryptBytes key data)), admitted (.crypt key data) s) :=
  hostCrypt_next (exec_crypt_admitted hkey hdata hkmax hdmax) (admitted_crypt_answers key data s)

theorem cryptBytes_ne_nil {data : List Byte} (key : List Byte) (h : data ≠ []) :
    cryptBytes key data ≠ [] := by
  rwa [← List.length_pos_iff, cryptBytes_length, List.length_pos_iff]

/-- ENCRYPT with operands that pass the host's checks is CRYPT between the conversions
(44_codec_boundary.md R187). -/
theorem encrypt_eq_hostCrypt {policy : Config.CharPolicy} {plaintext keytext : Text} (s : State)
    (hkey : keytext ≠ []) (hplain : plaintext ≠ []) (hkeyOk : rejects policy keytext = false)
    (hplainOk : rejects policy plaintext = false) :
    encrypt plaintext keytext s policy =
      hostCrypt hexEncode (textBytes keytext) (textBytes plaintext) s := by
  simp [encrypt, hkey, hplain, hkeyOk, hplainOk]

/-- DECRYPT with operands that pass the host's checks is CRYPT on the decoded bytes
(44_codec_boundary.md R188). -/
theorem decrypt_eq_hostCrypt {policy : Config.CharPolicy} {ciphertext keytext : Text}
    {data : List Byte} (s : State) (hkey : keytext ≠ []) (hcipher : ciphertext ≠ [])
    (hdecode : hexDecode ciphertext = some data) (hkeyOk : rejects policy keytext = false) :
    decrypt ciphertext keytext s policy = hostCrypt bytesText (textBytes keytext) data s := by
  simp [decrypt, hkey, hcipher, hdecode, hkeyOk]

/-- Settles O54: the ciphertext decodes to the bytes CRYPT answered, and CRYPT with the same key turns those
back into the plaintext's bytes, from whatever state. -/
theorem encryptDecryptRoundTrip : Obligations.EncryptDecryptRoundTrip := by
  intro policy s₁ s₂ plaintext keytext hplain hkey hcodes hkeyOk hkmax₁ hpmax₁ hkmax₂ hpmax₂
  rw [← textBytes_length] at hkmax₁ hpmax₁ hkmax₂ hpmax₂
  have hkeyBytes : textBytes keytext ≠ [] := mt textBytes_eq_nil.1 hkey
  have hplainBytes : textBytes plaintext ≠ [] := mt textBytes_eq_nil.1 hplain
  have hout := cryptBytes_ne_nil (textBytes keytext) hplainBytes
  refine ⟨hexEncode (cryptBytes (textBytes keytext) (textBytes plaintext)), ?encrypt, ?length,
    ?decrypt⟩
  case encrypt =>
    rw [encrypt_eq_hostCrypt s₁ hkey hplain hkeyOk (rejects_eq_false hcodes),
      hostCrypt_admitted hkeyBytes hplainBytes hkmax₁ hpmax₁]
  case length => rw [hexEncode_length, cryptBytes_length, textBytes_length]
  case decrypt =>
    rw [decrypt_eq_hostCrypt s₂ hkey (hexEncode_ne_nil hout) (hexDecode_hexEncode _) hkeyOk,
      hostCrypt_admitted hkeyBytes hout hkmax₂ (by rwa [cryptBytes_length]), cryptBytes_twice,
      bytesText_textBytes hcodes]

end Sys2Proof.Machine
end


section
/-! Refusals and completion (60_exceptions.md): what each check reports and when, which commands can therefore
give which answer, and that a command whose checks pass answers `Ok`. -/

namespace Sys2Proof.Machine

open Sys2Proof.Laws

/-! ## What a check reports -/

/-- The key check of SCHED comes before the bound (R209; 40_ksa.md R110). -/
theorem checkSched_eq_some {p : Config.Params} {key : List Byte} {k : ErrKind} :
    checkSched p key = some k ↔
      (key = [] ∧ k = .invalidKey) ∨
      (key ≠ [] ∧ ¬ InBound p.keyMax key.length ∧ k = .operandRange) := by
  rw [← exceeds_eq_true]
  cases key with
  | nil => simp [checkSched, eq_comm (a := k)]
  | cons b key => simp [checkSched, eq_comm (a := k)]

/-- The phase check of GEN comes before the bound (R209; 41_prga.md R130). -/
theorem checkGen_eq_some {phase : Phase} {p : Config.Params} {count : Nat} {k : ErrKind} :
    checkGen phase p count = some k ↔
      (phase ≠ .keyed ∧ k = .notKeyed) ∨
      (phase = .keyed ∧ ¬ InBound p.lenMax count ∧ k = .operandRange) := by
  rw [← exceeds_eq_true]
  by_cases hkeyed : phase = .keyed
  · simp [checkGen, hkeyed, eq_comm (a := k)]
  · simp [checkGen, hkeyed, eq_comm (a := k)]

/-- The length check of XORC comes before the bound (R209; 42_cipher_engine.md R150). -/
theorem checkXorc_eq_some {p : Config.Params} {data ks : List Byte} {k : ErrKind} :
    checkXorc p data ks = some k ↔
      (data.length ≠ ks.length ∧ k = .lengthMismatch) ∨
      (data.length = ks.length ∧ ¬ InBound p.lenMax data.length ∧ k = .operandRange) := by
  rw [← exceeds_eq_true]
  by_cases hlen : data.length = ks.length
  · simp [checkXorc, hlen, eq_comm (a := k)]
  · simp [checkXorc, hlen, eq_comm (a := k)]

/-- CRYPT checks for an empty key, then for empty data, then both bounds (R209; 42_cipher_engine.md R154). -/
theorem checkCrypt_eq_some {p : Config.Params} {key data : List Byte} {k : ErrKind} :
    checkCrypt p key data = some k ↔
      (key = [] ∧ k = .invalidKey) ∨
      (key ≠ [] ∧ data = [] ∧ k = .emptyInput) ∨
      (key ≠ [] ∧ data ≠ [] ∧
        ¬ (InBound p.keyMax key.length ∧ InBound p.lenMax data.length) ∧ k = .operandRange) := by
  rw [← exceeds_eq_false, ← exceeds_eq_false]
  cases key with
  | nil => simp [checkCrypt, eq_comm (a := k)]
  | cons b key =>
    cases data with
    | nil => simp [checkCrypt, eq_comm (a := k)]
    | cons d data =>
      cases hkmax : exceeds p.keyMax (b :: key).length with
      | true => simp [checkCrypt, eq_comm (a := k), hkmax, -List.length_cons]
      | false => simp [checkCrypt, eq_comm (a := k), hkmax, -List.length_cons]

/-! ## Which commands give an answer -/

/-- InvalidKey is reported for an empty key only, by the two commands that take a key (R201). -/
theorem checkOf_eq_invalidKey {i : Instr} {s : State} :
    checkOf i s = some .invalidKey ↔ i = .sched [] ∨ ∃ data, i = .crypt [] data := by
  cases i with
  | stat => simp [checkOf]
  | clear => simp [checkOf]
  | sched key => simp [checkOf, checkSched_eq_some]
  | gen count => simp [checkOf, checkGen_eq_some]
  | xorc data ks => simp [checkOf, checkXorc_eq_some]
  | crypt key data => simp [checkOf, checkCrypt_eq_some]

/-- LengthMismatch is reported for unequal lengths only, by XORC alone (R202). -/
theorem checkOf_eq_lengthMismatch {i : Instr} {s : State} :
    checkOf i s = some .lengthMismatch ↔
      ∃ data ks, i = .xorc data ks ∧ data.length ≠ ks.length := by
  cases i with
  | stat => simp [checkOf]
  | clear => simp [checkOf]
  | sched key => simp [checkOf, checkSched_eq_some]
  | gen count => simp [checkOf, checkGen_eq_some]
  | xorc data ks => simp [checkOf, checkXorc_eq_some]
  | crypt key data => simp [checkOf, checkCrypt_eq_some]

/-- Settles O38: an answer `Err` is the first failing check, which is InvalidKey for an empty key only; with a
non-empty key within the bounds SCHED and CRYPT are admitted, whatever the bytes. -/
theorem emptyKeyRefused : Obligations.EmptyKeyRefused := by
  refine ⟨?exactly, ?sched, ?crypt, ?schedOk, ?cryptOk⟩
  case exactly => exact fun s t i hexec => (answers_err hexec).trans checkOf_eq_invalidKey
  case sched => exact fun s => exec_refused (checkOf_eq_invalidKey.2 (.inl rfl))
  case crypt => exact fun s data => exec_refused (checkOf_eq_invalidKey.2 (.inr ⟨data, rfl⟩))
  case schedOk =>
    intro s key hkey hkmax
    exact ⟨_, exec_sched_admitted hkey hkmax, admitted_sched_answers key s⟩
  case cryptOk =>
    intro s key data hkey hdata hkmax hdmax
    exact ⟨_, _, exec_crypt_admitted hkey hdata hkmax hdmax, admitted_crypt_answers key data s⟩

/-- Settles O39: an answer `Err` is the first failing check, which is LengthMismatch for an XORC of unequal
lengths only. -/
theorem lengthMismatchOnlyFromXorc : Obligations.LengthMismatchOnlyFromXorc := by
  refine ⟨?mismatch, ?exactly⟩
  case mismatch =>
    exact fun s data ks hlen =>
      exec_refused (checkOf_eq_lengthMismatch.2 ⟨data, ks, rfl, hlen⟩)
  case exactly => exact fun s t i hexec => (answers_err hexec).trans checkOf_eq_lengthMismatch

/-! ## Completion -/

/-- A command whose checks pass runs to its end and answers `Ok` (R211). -/
theorem exec_answers_ok {i : Instr} {s : State} (hcheck : checkOf i s = none) :
    ∃ t payload, exec i s = .next t ∧ Answers s t (.ok payload) := by
  obtain ⟨payload, hout⟩ := admitted_outbox i s
  exact ⟨admitted i s, payload, exec_admitted hcheck, hout⟩

/-- Settles O44: the conditions written out for each command are those under which its checks pass. -/
theorem admittedCommandAnswersOk : Obligations.AdmittedCommandAnswersOk := by
  intro s i hpass
  apply exec_answers_ok
  cases i with
  | stat => rfl
  | clear => rfl
  | sched key => exact checkSched_eq_none.2 hpass
  | gen count => exact checkGen_eq_none.2 hpass
  | xorc data ks => exact checkXorc_eq_none.2 hpass
  | crypt key data => exact checkCrypt_eq_none.2 hpass

end Sys2Proof.Machine
end


section
/-! The decoder and the sequencer (30_encoding.md; 70_reset_and_hazards.md): decoding undoes encoding, and
what a step does with each thing that can come to the block. -/

namespace Sys2Proof.Machine

open Sys2Proof.Laws

/-! ## The decoder -/

/-- A command takes back the operands the encoder puts in their places (30_encoding.md R82, R83). -/
theorem withOperands_operandsOf (i : Instr) : withOperands i.op (operandsOf i) = i := by
  cases i <;> rfl

/-- Decoding undoes encoding (30_encoding.md R80 to R83). -/
@[simp] theorem decode_encode (i : Instr) : decode (encode i) = .ok i :=
  decode_eq_ok.2 ⟨rfl, (withOperands_operandsOf i).symm⟩

/-- Settles O2: the decoder reads a command exactly from that command's byte and the operands it takes, and
the encoder writes just these. -/
theorem decodeEncodeAgree : Obligations.DecodeEncodeAgree := by
  refine ⟨decode_encode, fun r i hdecode => ?_⟩
  obtain ⟨hcmd, hops⟩ := decode_eq_ok.1 hdecode
  exact ⟨hcmd.symm, hops⟩

/-- Settles O1: each of the six bytes is the byte of its command, and the eleven others are no command's. -/
theorem specBytesDecode : Obligations.SpecBytesDecode := by
  refine ⟨fun o => ⟨decode_commandByte .stat o, decode_commandByte .clear o,
    decode_commandByte .sched o, decode_commandByte .gen o, decode_commandByte .xorc o,
    decode_commandByte .crypt o⟩, fun o b hb => decode_reserved ?_⟩
  have hreserved : ∀ b ∈ [0x00#8, 0x03#8, 0x0F#8, 0x11#8, 0x1F#8, 0x21#8, 0x32#8, 0x3F#8, 0x40#8,
      0x80#8, 0xFF#8], b ∉ [0x01#8, 0x02#8, 0x10#8, 0x20#8, 0x30#8, 0x31#8] := by decide
  exact hreserved b hb

/-! ## One step for each thing that can come -/

theorem step_quiescent {s : State} (h : s.inbox = []) : step s = .next s := by
  simp [step, takeNext, h]

theorem step_command {s : State} {r : Request} {rest : List HostEvent} {i : Instr}
    (h : s.inbox = .command r :: rest) (hdecode : decode r = .ok i) :
    step s = exec i { s with inbox := rest } := by
  simp [step, takeNext, runEvent, h, hdecode]

theorem step_reserved {s : State} {r : Request} {rest : List HostEvent} {k : ErrKind}
    (h : s.inbox = .command r :: rest) (hdecode : decode r = .error k) :
    step s = .next (({ s with inbox := rest } : State).raise k) := by
  simp [step, takeNext, runEvent, h, hdecode]

/-- A reset during a command is a reset (70_reset_and_hazards.md R230). -/
theorem step_reset {s : State} {e : HostEvent} {rest : List HostEvent} (h : s.inbox = e :: rest)
    (he : e = .reset ∨ ∃ r, e = .resetDuring r) :
    step s = .next ({ s with inbox := rest } : State).discard := by
  obtain rfl | ⟨r, rfl⟩ := he
  · simp [step, takeNext, runEvent, h]
  · simp [step, takeNext, runEvent, h]

/-- Settles O4: the sequencer takes the entry, decodes it and runs the command. -/
theorem stepRunsDecodedCommand : Obligations.StepRunsDecodedCommand :=
  fun _ _ _ _ => step_command

/-- Settles O3: the decoder turns the byte away, and the sequencer answers with the decoder's kind. -/
theorem reservedByteAnswersIllegal : Obligations.ReservedByteAnswersIllegal :=
  fun _ _ _ hcmd hinbox => step_reserved hinbox (decode_reserved hcmd)

/-- Settles O6: with an empty inbox the sequencer answers the state it was given. -/
theorem quiescentStepChangesNothing : Obligations.QuiescentStepChangesNothing :=
  fun _ => step_quiescent

/-- Settles O5: the step discards the permutation, which leaves the reset phase and cursors and answers
nothing. -/
theorem resetEventLeavesResetState : Obligations.ResetEventLeavesResetState := by
  intro s e rest hinbox he
  exact ⟨({ s with inbox := rest } : State).discard, step_reset hinbox he, discard_phase _,
    discard_i _, discard_j _, status_idle (discard_phase _), discard_outbox _, discard_inbox _,
    discard_params _⟩

/-- Settles O8: the fields are those of the definition, and STATUS of IDLE is 0x00. -/
theorem resetStateIsIdle : Obligations.ResetStateIsIdle :=
  ⟨rfl, rfl, rfl, status_idle rfl, rfl, rfl⟩

/-! ## Every step answers once -/

/-- Whatever a command does, it ends in a next state with one response more and leaves the parameters and
what is to come (60_exceptions.md R211; 00_scope.md R6). -/
theorem exec_completes (i : Instr) (s : State) :
    ∃ t r, exec i s = .next t ∧ Answers s t r ∧ t.params = s.params ∧ t.inbox = s.inbox := by
  cases hcheck : checkOf i s with
  | some k =>
    exact ⟨s.raise k, .err k, exec_refused hcheck, raise_outbox s k, raise_params s k,
      raise_inbox s k⟩
  | none =>
    obtain ⟨payload, hout⟩ := admitted_outbox i s
    exact ⟨admitted i s, .ok payload, exec_admitted hcheck, hout, admitted_params i s,
      admitted_inbox i s⟩

/-- Settles O7: a command, decoded or reserved, adds its one response; a reset and an empty list add none. -/
theorem stepNeverStopsAndAnswersOnce : Obligations.StepNeverStopsAndAnswersOnce := by
  intro s
  obtain ⟨hinbox, hstep⟩ | ⟨r, rest, i, hinbox, -, hstep⟩ | ⟨r, rest, k, hinbox, -, hstep⟩ |
    ⟨e, rest, hinbox, he, hstep⟩ := step_cases s
  · exact ⟨s, [], hstep, by simp, by simp [hinbox], rfl, by simp [hinbox]⟩
  · obtain ⟨t, answer, hexec, hout, hparams, hin⟩ := exec_completes i { s with inbox := rest }
    exact ⟨t, [answer], hstep.trans hexec, hout, by simp [hin, hinbox], hparams, by simp [hinbox]⟩
  · exact ⟨_, [.err k], hstep, rfl, by simp [hinbox], rfl, by simp [hinbox]⟩
  · refine ⟨_, [], hstep, by simp, by simp [hinbox], rfl, ?_⟩
    obtain rfl | ⟨r, rfl⟩ := he
    · simp [hinbox]
    · simp [hinbox]

/-! ## Control commands -/

/-- Settles O9: STAT passes and answers STATUS, which is the phase. -/
theorem statAnswersPhase : Obligations.StatAnswersPhase := by
  intro s
  refine (exec_admitted (i := .stat) rfl).trans
    (congrArg (fun b => Host.Outcome.next (s.respond [b])) ?_)
  cases hphase : s.phase with
  | idle => exact status_idle hphase
  | keyed => exact status_keyed hphase
  | spent => exact status_spent hphase

/-- Settles O10: STATUS has one value for each of the three phases. -/
theorem statusFields : Obligations.StatusFields := by
  intro s
  cases hphase : s.phase with
  | idle => rw [status_idle hphase]; decide
  | keyed => rw [status_keyed hphase]; decide
  | spent => rw [status_spent hphase]; decide

/-- Outside KEYED every GEN is refused, whatever its count (41_prga.md R130, R138). -/
theorem exec_gen_notKeyed {s : State} (h : s.phase ≠ .keyed) (n : Nat) :
    exec (.gen n) s = .next (s.raise .notKeyed) :=
  exec_refused (checkGen_eq_some.2 (.inl ⟨h, rfl⟩))

/-- CLEAR answers the reset state (43_control.md R172). -/
theorem exec_clear (s : State) : exec .clear s = .next (s.discard.respond []) :=
  exec_admitted (i := .clear) rfl

/-- Settles O11: CLEAR leaves IDLE, which the check of GEN turns away. -/
theorem clearLeavesResetState : Obligations.ClearLeavesResetState := by
  intro s
  exact ⟨s.discard.respond [], exec_clear s, rfl, rfl, rfl, rfl, status_idle rfl, rfl, rfl,
    exec_gen_notKeyed (by simp)⟩

/-- Settles O12: the reset event discards the permutation, and CLEAR does the same and answers. -/
theorem clearActsAsReset : Obligations.ClearActsAsReset := by
  intro s u rest hinbox hstep
  obtain rfl := Host.Outcome.next.inj ((step_reset hinbox (.inl rfl)).symm.trans hstep)
  exact exec_clear _

end Sys2Proof.Machine
end


section
/-! What a host cannot see never shows (10_state.md R25, R28, R34): every effect of a step takes two states
with the same view to two such states. -/

namespace Sys2Proof.Machine

open Sys2Proof.Laws

/-! ## The effects of a step -/

theorem sameView_of_inbox {s t : State} (h : SameView s t) (rest : List HostEvent) :
    SameView { s with inbox := rest } { t with inbox := rest } := by
  obtain ⟨hphase, hparams, -, hout, hstore⟩ := h
  exact ⟨hphase, hparams, rfl, hout, hstore⟩

/-- The same answer keeps the view. -/
theorem sameView_respond {s t : State} (h : SameView s t) (payload : List Byte) :
    SameView (s.respond payload) (t.respond payload) := by
  obtain ⟨hphase, hparams, hin, hout, hstore⟩ := h
  exact ⟨hphase, hparams, hin, by rw [respond_outbox, respond_outbox, hout], hstore⟩

theorem sameView_raise {s t : State} (h : SameView s t) (k : ErrKind) :
    SameView (s.raise k) (t.raise k) := by
  obtain ⟨hphase, hparams, hin, hout, hstore⟩ := h
  exact ⟨hphase, hparams, hin, by rw [raise_outbox, raise_outbox, hout], hstore⟩

/-- After a reset nobody holds a permutation, so the free bytes in the store are out of view (R34). -/
theorem sameView_discard {s t : State} (h : SameView s t) : SameView s.discard t.discard := by
  obtain ⟨-, hparams, hin, hout, -⟩ := h
  exact ⟨rfl, hparams, hin, hout, nofun⟩

/-- A spent permutation is out of view, whatever store and cursors it leaves (R28). -/
theorem sameView_spent {s t : State} (h : SameView s t) (p q : PermutationState) :
    SameView { s with perm := p, phase := .spent } { t with perm := q, phase := .spent } := by
  obtain ⟨-, hparams, hin, hout, -⟩ := h
  exact ⟨rfl, hparams, hin, hout, nofun⟩

theorem sameView_keyed {s t : State} (h : SameView s t) (p : PermutationState) :
    SameView { s with perm := p, phase := .keyed } { t with perm := p, phase := .keyed } := by
  obtain ⟨-, hparams, hin, hout, -⟩ := h
  exact ⟨rfl, hparams, hin, hout, fun _ _ => rfl⟩

/-! ## Commands -/

/-- STATUS is a view of the phase (10_state.md R32). -/
theorem status_congr {s t : State} (h : s.phase = t.phase) : s.status = t.status := by
  rw [State.status, State.status, h]

/-- The checks read the phase, the parameters and the operands only. -/
theorem checkOf_congr {s t : State} (hphase : s.phase = t.phase) (hparams : s.params = t.params)
    (i : Instr) : checkOf i s = checkOf i t := by
  cases i <;> simp only [checkOf, hphase, hparams]

/-- The bytes a generator run emits depend on what the store reads as, not on the cursors it finds
(41_prga.md R132). -/
theorem prgaRun_start_bytes_congr {p q : PermutationState}
    (h : ∀ a, Memory.read p.S a = Memory.read q.S a) (n : Nat) :
    (prgaRun n (prgaStart p)).2 = (prgaRun n (prgaStart q)).2 :=
  (prgaRun_eq_keystream h n).trans (prgaRun_eq_keystream (fun _ => rfl) n).symm

/-- GEN is the one command that shows the store, and it is admitted in KEYED only, where the two stores read
alike; it spends the permutation, so what it leaves is out of view. -/
theorem sameView_admitted {s t : State} {i : Instr} (h : SameView s t)
    (hcheck : checkOf i s = none) : SameView (admitted i s) (admitted i t) := by
  have ⟨hphase, _, _, _, hstore⟩ := h
  cases i with
  | stat =>
    simp only [admitted, status_congr hphase]
    exact sameView_respond h _
  | clear => exact sameView_respond (sameView_discard h) []
  | sched key => exact sameView_respond (sameView_keyed h _) []
  | gen count =>
    obtain ⟨hkeyed, -⟩ := checkGen_eq_none.1 hcheck
    simp only [admitted, prgaRun_start_bytes_congr (hstore hkeyed)]
    exact sameView_respond (sameView_spent h _ _) _
  | xorc data ks => exact sameView_respond h _
  | crypt key data => exact sameView_respond (sameView_spent h _ _) _

theorem sameView_exec {s t u v : State} {i : Instr} (h : SameView s t) (hs : exec i s = .next u)
    (ht : exec i t = .next v) : SameView u v := by
  have ⟨hphase, hparams, _⟩ := h
  have hsame := checkOf_congr hphase hparams i
  cases hcheck : checkOf i s with
  | some k =>
    obtain rfl := Host.Outcome.next.inj ((exec_refused hcheck).symm.trans hs)
    obtain rfl := Host.Outcome.next.inj ((exec_refused (hsame.symm.trans hcheck)).symm.trans ht)
    exact sameView_raise h k
  | none =>
    obtain rfl := Host.Outcome.next.inj ((exec_admitted hcheck).symm.trans hs)
    obtain rfl := Host.Outcome.next.inj ((exec_admitted (hsame.symm.trans hcheck)).symm.trans ht)
    exact sameView_admitted h hcheck

/-- Settles O51: the same thing comes to both states, and each thing that can come keeps the view. -/
theorem hiddenStateNeverShows : Obligations.HiddenStateNeverShows := by
  intro s₁ s₂ t₁ t₂ h hs₁ hs₂
  have ⟨_, _, hin, _⟩ := h
  obtain ⟨hinbox, hstep⟩ | ⟨r, rest, i, hinbox, hdecode, hstep⟩ |
    ⟨r, rest, k, hinbox, hdecode, hstep⟩ | ⟨e, rest, hinbox, he, hstep⟩ := step_cases s₁ <;>
    rw [hstep] at hs₁ <;> rw [hin] at hinbox
  · obtain rfl := Host.Outcome.next.inj hs₁
    obtain rfl := Host.Outcome.next.inj ((step_quiescent hinbox).symm.trans hs₂)
    exact h
  · rw [step_command hinbox hdecode] at hs₂
    exact sameView_exec (sameView_of_inbox h rest) hs₁ hs₂
  · rw [step_reserved hinbox hdecode] at hs₂
    obtain rfl := Host.Outcome.next.inj hs₁
    obtain rfl := Host.Outcome.next.inj hs₂
    exact sameView_raise (sameView_of_inbox h rest) k
  · rw [step_reset hinbox he] at hs₂
    obtain rfl := Host.Outcome.next.inj hs₁
    obtain rfl := Host.Outcome.next.inj hs₂
    exact sameView_discard (sameView_of_inbox h rest)

end Sys2Proof.Machine
end


section
/-! The store and the key schedule (20_memory.md; 40_ksa.md): what a swap and a round leave to read, and which
bytes of a key the schedule reads. -/

namespace Sys2Proof.Machine

open Sys2Proof.Laws

/-! ## Swaps -/

theorem read_swap_left (m : List Host.Cell) (a b : Byte) :
    Memory.read (Memory.swap m a b) a = Memory.read m b := by
  rw [read_swap, if_pos rfl]
  split
  · next hab => rw [hab]
  · rfl

theorem read_swap_right (m : List Host.Cell) (a b : Byte) :
    Memory.read (Memory.swap m a b) b = Memory.read m a := by
  rw [read_swap, if_pos rfl]

theorem read_swap_other (m : List Host.Cell) {a b x : Byte} (ha : x ≠ a) (hb : x ≠ b) :
    Memory.read (Memory.swap m a b) x = Memory.read m x := by
  rw [read_swap, if_neg hb, if_neg ha]

/-- A swap of a cell with itself leaves every cell (92_eei_decisions.md D24). -/
theorem read_swap_self (m : List Host.Cell) (a x : Byte) :
    Memory.read (Memory.swap m a a) x = Memory.read m x := by
  by_cases hx : x = a
  · rw [hx, read_swap_right]
  · rw [read_swap_other m hx hx]

/-- Settles O14: with equal indices the cells read as before, and a canonical store is determined by what its
cells read as. -/
theorem swapExchangesCells : Obligations.SwapExchangesCells :=
  ⟨fun m a b => ⟨read_swap_left m a b, read_swap_right m a b, fun _ => read_swap_other m⟩,
    fun m a hwf => wf_ext (wf_swap a a hwf) hwf (read_swap_self m a)⟩

/-! ## Key bytes -/

/-- The key is read cyclically (40_ksa.md R115; 20_memory.md R51). -/
theorem keyByte_eq_getElem {key : List Byte} (h : key ≠ []) (k : Byte) :
    keyByte key k =
      key[k.toNat % key.length]'(Nat.mod_lt _ (List.length_pos_of_ne_nil h)) :=
  List.getD_eq_getElem _ _ _

/-- A key of at least 256 bytes is read in its first 256 only (20_memory.md R57). -/
theorem keyByte_eq_take {key : List Byte} (h : 256 ≤ key.length) (k : Byte) :
    keyByte key k = (key.take 256).getD k.toNat 0#8 := by
  have hk : k.toNat < 256 := k.isLt
  rw [keyByte, umod, Nat.mod_eq_of_lt (by omega), List.getD_eq_getElem?_getD,
    List.getD_eq_getElem?_getD, List.getElem?_take_of_lt hk]

/-- A list written `m` times in a row is read cyclically. -/
theorem getElem?_flatten_replicate {α : Type} (l : List α) {m i : Nat} (h : i < m * l.length) :
    (List.replicate m l).flatten[i]? = l[i % l.length]? := by
  induction m generalizing i with
  | zero => omega
  | succ m ih =>
    rw [List.replicate_succ, List.flatten_cons]
    by_cases hi : i < l.length
    · rw [List.getElem?_append_left hi, Nat.mod_eq_of_lt hi]
    · have hle : l.length ≤ i := Nat.le_of_not_lt hi
      rw [Nat.succ_mul] at h
      rw [List.getElem?_append_right hle, ih (by omega), ← Nat.mod_eq_sub_mod hle]

/-- A key written `m` times in a row has the key bytes of the key (40_ksa.md R115). -/
theorem keyByte_flatten_replicate {key : List Byte} (h : key ≠ []) {m : Nat} (hm : 1 ≤ m)
    (k : Byte) : keyByte (List.replicate m key).flatten k = keyByte key k := by
  have hlen : (List.replicate m key).flatten.length = m * key.length := by simp
  have hpos : 0 < m * key.length := Nat.mul_pos hm (List.length_pos_of_ne_nil h)
  rw [keyByte, keyByte, umod, umod, hlen, List.getD_eq_getElem?_getD, List.getD_eq_getElem?_getD,
    getElem?_flatten_replicate key (Nat.mod_lt _ hpos), Nat.mod_mul_left_mod]

/-- Settles O18: the schedule depends on the key bytes alone, and these are the same. -/
theorem repeatedKeySchedulesSame : Obligations.RepeatedKeySchedulesSame :=
  fun _ _ hkey hm => schedule_congr fun _ _ => keyByte_flatten_replicate hkey hm _

/-- Settles O19: the schedule depends on the key bytes alone, and these lie in the first 256. -/
theorem longKeyTailNeverRead : Obligations.LongKeyTailNeverRead :=
  fun _ _ h₁ h₂ htake => schedule_congr fun _ _ => by
    rw [keyByte_eq_take h₁, keyByte_eq_take h₂, htake]

/-! ## Rounds -/

/-- Settles O15: the round is the new accumulator, a sum of bytes, and then a swap with it. -/
theorem ksaRoundUpdates : Obligations.KsaRoundUpdates := by
  intro key ki m kj m' kj' hkey hround
  rw [ksaRound_eq] at hround
  obtain ⟨rfl, rfl⟩ := Prod.mk.inj hround
  refine ⟨?accumulator, read_swap_left m ki _, read_swap_right m ki _, fun _ => read_swap_other m⟩
  case accumulator =>
    simp only [BitVec.toNat_add, keyByte_eq_getElem hkey, Nat.mod_add_mod]

/-- One round more adds the cell at the round's index and the key byte (40_ksa.md R113). -/
theorem ksaRounds_succ_accumulator (key : List Byte) (n : Nat) :
    (ksaRounds key (n + 1)).2 =
      (ksaRounds key n).2 + Memory.read (ksaRounds key n).1 (trunc8 n) + keyByte key (trunc8 n) :=
  rfl

theorem trunc8_add (a b : Nat) : trunc8 (a + b) = trunc8 a + trunc8 b :=
  BitVec.ofNat_add a b

theorem trunc8_toNat (b : Byte) : trunc8 b.toNat = b :=
  (BitVec.ofNat_toNat 8 b).trans (BitVec.setWidth_eq b)

/-- Settles O20: by induction on the rounds; a cell that holds its own index adds that index. -/
theorem firstRoundsClosedForm : Obligations.FirstRoundsClosedForm := by
  intro key n hcells
  induction n with
  | zero => rfl
  | succ n ih =>
    have hbefore := ih fun r hr => hcells r (Nat.lt_succ_of_lt hr)
    rw [ksaRounds_succ_accumulator, hbefore, hcells n (Nat.lt_succ_self n), List.range_succ,
      List.map_append, List.sum_append, List.map_singleton, List.sum_singleton, trunc8_add,
      trunc8_add n, trunc8_toNat, BitVec.add_assoc]

/-! ## SCHED -/

/-- Both cursors of a schedule are 0 (40_ksa.md R116). -/
theorem schedule_cursors (key : List Byte) :
    schedule key = { S := (schedule key).S, i := 0#8, j := 0#8 } := by
  rw [schedule_eq]

/-- Settles O16: SCHED is admitted, and its effect is the schedule of the key, which reads as the reference's
permutation. -/
theorem schedSchedulesKey : Obligations.SchedSchedulesKey := by
  intro s key hkey hmax
  refine ⟨(schedule key).S, ?next, wf_schedule key, read_schedule key⟩
  case next =>
    rw [exec_sched_admitted hkey hmax, ← schedule_cursors]
    rfl

end Sys2Proof.Machine
end


section
/-! The generator (41_prga.md): what one round does to cursors and cells, how a run from the start depends on
its length, and the single use of a schedule. -/

namespace Sys2Proof.Machine

open Sys2Proof.Laws

/-! ## One round -/

/-- A round swaps the cells at its two new cursors (41_prga.md R133). -/
theorem prgaAdvance_S (p : PermutationState) :
    (prgaAdvance p).S = Memory.swap p.S (prgaAdvance p).i (prgaAdvance p).j := rfl

theorem prgaAdvance_i (p : PermutationState) : (prgaAdvance p).i = p.i + 1#8 := rfl

theorem prgaAdvance_j (p : PermutationState) :
    (prgaAdvance p).j = p.j + Memory.read p.S (prgaAdvance p).i := rfl

/-- Settles O21: cursors are bytes, and bytes add mod 256. -/
theorem cursorsWrap : Obligations.CursorsWrap :=
  ⟨BitVec.toNat_add, by decide, by decide,
    fun p => ⟨BitVec.toNat_add p.i 1#8, BitVec.toNat_add p.j _⟩⟩

/-- Settles O23: the round is a swap at its new cursors, and the output index is the sum of the two cells
whichever of them is read first. -/
theorem prgaRoundUpdates : Obligations.PrgaRoundUpdates := by
  rintro p _ rfl
  have hleft : Memory.read (prgaAdvance p).S (prgaAdvance p).i =
      Memory.read p.S (prgaAdvance p).j := read_swap_left p.S _ _
  have hright : Memory.read (prgaAdvance p).S (prgaAdvance p).j =
      Memory.read p.S (prgaAdvance p).i := read_swap_right p.S _ _
  refine ⟨prgaAdvance_i p, prgaAdvance_j p, hleft, hright, fun _ => read_swap_other p.S, ?emit⟩
  case emit => rw [prgaEmit_eq, hleft, hright, BitVec.add_comm]

/-- Settles O24: a swap of a cell with itself leaves every cell. -/
theorem selfSwapRound : Obligations.SelfSwapRound := by
  rintro p _ rfl hmeet
  have hcells : ∀ x, Memory.read (prgaAdvance p).S x = Memory.read p.S x := by
    intro x
    rw [prgaAdvance_S, ← hmeet, read_swap_self]
  exact ⟨hcells, by rw [prgaEmit_eq, ← hmeet, hcells, hcells]⟩

/-! ## A run from the start -/

/-- A shorter keystream is the beginning of a longer one (41_prga.md R139). -/
theorem keystreamBytes_take (f : Reference.Store) {m n : Nat} (h : m ≤ n) :
    (Reference.keystreamBytes f n).take m = Reference.keystreamBytes f m := by
  rw [Reference.keystreamBytes, ← List.map_take, List.take_range, Nat.min_eq_left h,
    Reference.keystreamBytes]

/-- Cursor `j` has added one cell for each round (41_prga.md R136). -/
theorem prga_cursor_toNat (f : Reference.Store) (n : Nat) :
    (Reference.prga f n).2.toNat =
      ((List.range n).map fun k =>
        ((Reference.prga f k).1 (BitVec.ofNat 8 (k + 1))).toNat).sum % 256 := by
  induction n with
  | zero => rfl
  | succ n ih =>
    have hround : (Reference.prga f (n + 1)).2 =
        (Reference.prga f n).2 + (Reference.prga f n).1 (BitVec.ofNat 8 (n + 1)) := rfl
    rw [hround, BitVec.toNat_add, ih, List.range_succ, List.map_append, List.sum_append,
      List.map_singleton, List.sum_singleton, Nat.mod_add_mod]

/-! ## GEN -/

theorem admitted_gen_perm (n : Nat) (s : State) :
    (admitted (.gen n) s).perm = (prgaRun n (prgaStart s.perm)).1 := rfl

/-- An admitted GEN answers the keystream of what the store reads as (41_prga.md R130). -/
theorem admitted_gen_answers {s : State} {f : Reference.Store}
    (hf : ∀ a, Memory.read s.perm.S a = f a) (n : Nat) :
    Answers s (admitted (.gen n) s) (.ok (Reference.keystreamBytes f n)) := by
  rw [← prgaRun_eq_keystream hf]
  rfl

/-- Settles O26: no count is below 0, so GEN is admitted, and a run of no rounds is the start. -/
theorem genZeroCount : Obligations.GenZeroCount :=
  fun _ hkeyed => exec_gen_admitted hkeyed fun b _ => Nat.zero_le b

/-- Settles O27: NotKeyed is what the check of GEN reports outside KEYED only, and an admitted GEN leaves
SPENT. -/
theorem oneGenerationPerSchedule : Obligations.OneGenerationPerSchedule := by
  refine ⟨fun s n => ⟨fun hexec => ?_, fun hphase => exec_gen_notKeyed hphase n⟩, ?after⟩
  · have hcheck : checkGen s.phase s.params n = some .notKeyed := (answers_err hexec).1 rfl
    simpa [checkGen_eq_some] using hcheck
  case after =>
    intro s t n m ks hexec hans
    obtain ⟨-, rfl⟩ := answers_ok hexec hans
    exact exec_gen_notKeyed (by simp) m

/-- Settles O28: both runs emit the keystream of one store, the shorter one its beginning. -/
theorem genPrefixProperty : Obligations.GenPrefixProperty := by
  intro s u m n hs hu hmn hread hsmax humax
  refine ⟨admitted (.gen n) s, admitted (.gen m) u, _, exec_gen_admitted hs hsmax,
    admitted_gen_answers hread n, exec_gen_admitted hu humax, ?shorter⟩
  case shorter =>
    rw [keystreamBytes_take _ hmn]
    exact admitted_gen_answers (fun _ => rfl) m

/-- Settles O29: the cursors of the run are the reference's. -/
theorem cursorsAfterGen : Obligations.CursorsAfterGen := by
  intro s n hkeyed hmax
  refine ⟨admitted (.gen n) s, exec_gen_admitted hkeyed hmax, ?i, ?j⟩
  case i => rw [admitted_gen_perm, prgaRun_start_cursors, BitVec.toNat_ofNat]
  case j => rw [admitted_gen_perm, prgaRun_start_cursors, prga_cursor_toNat]

end Sys2Proof.Machine
end


section
/-! CRYPT (42_cipher_engine.md): its run is the generator's run on the schedule of the key, combined with the
data. -/

namespace Sys2Proof.Machine

open Sys2Proof.Laws

/-! ## Combining -/

/-- Two combinations with one keystream differ as the data do (42_cipher_engine.md R160). -/
theorem zipWith_xorBytes {d₁ d₂ ks : List Byte} (h₁ : d₁.length = ks.length)
    (h₂ : d₂.length = ks.length) :
    List.zipWith (· ^^^ ·) (xorBytes d₁ ks) (xorBytes d₂ ks) = List.zipWith (· ^^^ ·) d₁ d₂ := by
  have hbyte : ∀ a b k : Byte, (a ^^^ k) ^^^ (b ^^^ k) = a ^^^ b := by
    intro a b k
    rw [BitVec.xor_comm b k, BitVec.xor_assoc, ← BitVec.xor_assoc k, BitVec.xor_self,
      BitVec.zero_xor]
  refine List.ext_getElem (by simp [xorBytes, h₁, h₂]) fun n _ _ => ?_
  simp only [List.getElem_zipWith, xorBytes, xor8, hbyte]

/-! ## The run of CRYPT -/

/-- What the schedule of a key reads as, as one function. -/
theorem read_schedule_eq (key : List Byte) :
    Memory.read (schedule key).S = Reference.permutation key :=
  funext (read_schedule key)

/-- CRYPT answers the data combined with the bytes of a run on its schedule (42_cipher_engine.md R155). -/
theorem cryptBytes_eq (key data : List Byte) :
    cryptBytes key data = xorBytes data (prgaRun data.length (prgaStart (schedule key))).2 := by
  rw [cryptBytes, cryptRun_eq]

theorem cryptRun_state (data : List Byte) (p : PermutationState) :
    (cryptRun data p).1 = (prgaRun data.length p).1 := by
  rw [cryptRun_eq]

/-- CRYPT answers the data combined with the keystream of the key's permutation (42_cipher_engine.md R154). -/
theorem cryptBytes_eq_reference (key data : List Byte) :
    cryptBytes key data =
      List.zipWith (· ^^^ ·) data
        (Reference.keystreamBytes (Reference.permutation key) data.length) := by
  rw [cryptBytes_eq, prgaRun_eq_keystream (read_schedule key)]
  rfl

theorem wf_prgaRun {p : PermutationState} (h : Memory.wf p.S = true) (n : Nat) :
    Memory.wf (prgaRun n p).1.S = true := by
  rw [prgaRun_state]
  exact wf_iterate h n

theorem wf_cryptRun {p : PermutationState} (h : Memory.wf p.S = true) (data : List Byte) :
    Memory.wf (cryptRun data p).1.S = true := by
  rw [cryptRun_state]
  exact wf_prgaRun h data.length

/-- Store and cursors after CRYPT's run are the reference's (42_cipher_engine.md R154). -/
theorem cryptRun_schedule_cursors (key data : List Byte) :
    (cryptRun data (prgaStart (schedule key))).1 =
      { S := (cryptRun data (prgaStart (schedule key))).1.S
        i := BitVec.ofNat 8 data.length
        j := (Reference.prga (Reference.permutation key) data.length).2 } := by
  rw [cryptRun_state, ← read_schedule_eq]
  exact prgaRun_start_cursors (schedule key) data.length

theorem read_cryptRun_schedule (key data : List Byte) (a : Byte) :
    Memory.read (cryptRun data (prgaStart (schedule key))).1.S a =
      (Reference.prga (Reference.permutation key) data.length).1 a := by
  rw [cryptRun_state, read_prgaRun_start, read_schedule_eq]

/-! ## CRYPT -/

/-- Settles O32: CRYPT is admitted, and each part of its effect is the reference's. -/
theorem cryptEncrypts : Obligations.CryptEncrypts := by
  intro s key data hkey hdata hkmax hdmax
  refine ⟨(cryptRun data (prgaStart (schedule key))).1.S, ?next,
    wf_cryptRun (p := prgaStart (schedule key)) (wf_schedule key) data,
    read_cryptRun_schedule key data⟩
  case next =>
    rw [exec_crypt_admitted hkey hdata hkmax hdmax, ← cryptRun_schedule_cursors,
      ← cryptBytes_eq_reference]
    rfl

/-- Settles O33: SCHED leaves the store CRYPT schedules, GEN runs on it as CRYPT does, and XORC combines with
what GEN answered. -/
theorem cryptIsSchedGenXorc : Obligations.CryptIsSchedGenXorc := by
  intro s key data hkey hdata hkmax hdmax
  have hks := prgaRun_length data.length (prgaStart (schedule key))
  refine ⟨admitted (.sched key) s, admitted (.gen data.length) (admitted (.sched key) s),
    admitted (.xorc data (prgaRun data.length (prgaStart (schedule key))).2)
      (admitted (.gen data.length) (admitted (.sched key) s)),
    admitted (.crypt key data) s, (prgaRun data.length (prgaStart (schedule key))).2,
    cryptBytes key data, exec_sched_admitted hkey hkmax, admitted_sched_answers key s,
    exec_gen_admitted rfl hdmax, rfl, exec_xorc_admitted hks.symm hdmax, ?xorc,
    exec_crypt_admitted hkey hdata hkmax hdmax, admitted_crypt_answers key data s, ?perm, rfl⟩
  case xorc =>
    rw [cryptBytes_eq]
    exact admitted_xorc_answers _ _ _
  case perm =>
    rw [admitted_crypt_perm, cryptRun_state]
    rfl

/-- Settles O36: the two outputs are the data combined with one keystream. -/
theorem keystreamIndependence : Obligations.KeystreamIndependence := by
  intro s₁ s₂ t₁ t₂ key d₁ d₂ o₁ o₂ hlen hexec₁ hans₁ hexec₂ hans₂
  obtain ⟨-, rfl⟩ := answers_ok hexec₁ hans₁
  obtain ⟨-, rfl⟩ := answers_ok hexec₂ hans₂
  obtain rfl := Response.ok.inj (answers_unique hans₁ (admitted_crypt_answers key d₁ s₁))
  obtain rfl := Response.ok.inj (answers_unique hans₂ (admitted_crypt_answers key d₂ s₂))
  rw [cryptBytes_eq, cryptBytes_eq, hlen]
  exact zipWith_xorBytes (by simpa using hlen) (by simp)

end Sys2Proof.Machine
end


section
/-! Answers and invariants (60_exceptions.md; 10_state.md): which kinds a command can answer and in what order
its checks report them, and what every command and every step keeps. -/

namespace Sys2Proof.Machine

open Sys2Proof.Laws

/-! ## Which kinds a command can answer -/

/-- EmptyInput is reported by CRYPT alone, for a key with no data (R207). -/
theorem checkOf_eq_emptyInput {i : Instr} {s : State} :
    checkOf i s = some .emptyInput ↔ ∃ key, key ≠ [] ∧ i = .crypt key [] := by
  cases i with
  | stat => simp [checkOf]
  | clear => simp [checkOf]
  | sched key => simp [checkOf, checkSched_eq_some]
  | gen count => simp [checkOf, checkGen_eq_some]
  | xorc data ks => simp [checkOf, checkXorc_eq_some]
  | crypt key data => simp [checkOf, checkCrypt_eq_some]

/-- OperandRange needs a bound that something exceeds (R206). -/
theorem checkOf_ne_operandRange {i : Instr} {s : State} (hkmax : s.params.keyMax = none)
    (hlmax : s.params.lenMax = none) : checkOf i s ≠ some .operandRange := by
  cases i with
  | stat => simp [checkOf]
  | clear => simp [checkOf]
  | sched key => simp [checkOf, checkSched_eq_some, hkmax, inBound_none]
  | gen count => simp [checkOf, checkGen_eq_some, hlmax, inBound_none]
  | xorc data ks => simp [checkOf, checkXorc_eq_some, hlmax, inBound_none]
  | crypt key data => simp [checkOf, checkCrypt_eq_some, hkmax, hlmax, inBound_none]

/-- The five kinds that the checks of the commands report (R200). -/
theorem checkOf_mem {i : Instr} {s : State} {k : ErrKind} (h : checkOf i s = some k) :
    k ∈ [ErrKind.invalidKey, .lengthMismatch, .notKeyed, .emptyInput, .operandRange] := by
  cases i with
  | stat => simp [checkOf] at h
  | clear => simp [checkOf] at h
  | sched key =>
    obtain ⟨-, rfl⟩ | ⟨-, -, rfl⟩ := checkSched_eq_some.1 h <;> decide
  | gen count =>
    obtain ⟨-, rfl⟩ | ⟨-, -, rfl⟩ := checkGen_eq_some.1 h <;> decide
  | xorc data ks =>
    obtain ⟨-, rfl⟩ | ⟨-, -, rfl⟩ := checkXorc_eq_some.1 h <;> decide
  | crypt key data =>
    obtain ⟨-, rfl⟩ | ⟨-, -, rfl⟩ | ⟨-, -, -, rfl⟩ := checkCrypt_eq_some.1 h <;> decide

/-- Settles O40: an answer `Err` is the first failing check. -/
theorem emptyDataRefused : Obligations.EmptyDataRefused :=
  fun _ _ _ hexec => (answers_err hexec).trans checkOf_eq_emptyInput

/-- Settles O42: the default parameters bound nothing. -/
theorem noRangeRefusalAtDefaults : Obligations.NoRangeRefusalAtDefaults := by
  intro s t i hparams hexec hans
  exact checkOf_ne_operandRange (by rw [hparams]; rfl) (by rw [hparams]; rfl)
    ((answers_err hexec).1 hans)

/-- A command answered `Err` was refused. -/
theorem eq_raise_of_answers_err {s t : State} {i : Instr} {k : ErrKind} (hexec : exec i s = .next t)
    (hans : Answers s t (.err k)) : t = s.raise k :=
  (Host.Outcome.next.inj ((exec_refused ((answers_err hexec).1 hans)).symm.trans hexec)).symm

/-- Settles O43: a command answered `Err` was refused, and a refusal only adds the response; the code of a
kind is never that of `Ok`. -/
theorem refusalChangesNothing : Obligations.RefusalChangesNothing := by
  refine ⟨fun s t i k hexec hans => eq_raise_of_answers_err hexec hans, fun k => ⟨rfl, ?_⟩⟩
  cases k <;> decide

/-- A step answers with a kind of the commands' checks or with the decoder's (R200, R203, R204). -/
theorem step_outbox_ne_invalidCiphertextFormat {s t : State} (hstep : step s = .next t) :
    t.outbox ≠ s.outbox ++ [.err .invalidCiphertextFormat] := by
  intro hout
  obtain ⟨-, he⟩ | ⟨r, rest, i, -, -, he⟩ | ⟨r, rest, k, -, hdecode, he⟩ | ⟨e, rest, -, -, he⟩ :=
    step_cases s <;> rw [he] at hstep
  · obtain rfl := Host.Outcome.next.inj hstep
    simp at hout
  · have hcheck := (answers_err (s := { s with inbox := rest }) hstep).1 hout
    exact absurd (checkOf_mem hcheck) (by decide)
  · obtain rfl := Host.Outcome.next.inj hstep
    simp [decode_error hdecode] at hout
  · obtain rfl := Host.Outcome.next.inj hstep
    simp at hout

/-- Settles O45: the codes and bytes are those of the definitions; the two kinds are none of the kinds a
command's checks report. -/
theorem kindsAndCodes : Obligations.KindsAndCodes := by
  refine ⟨⟨rfl, rfl, rfl, rfl, rfl, rfl, rfl⟩, fun _ => rfl, fun _ => rfl,
    fun _ _ => step_outbox_ne_invalidCiphertextFormat, fun s t i hexec hans => ?_⟩
  exact absurd (checkOf_mem ((answers_err hexec).1 hans)) (by decide)

/-- Settles O41: what each check reports is known, and a command is answered what its check reports. -/
theorem checksInOrder : Obligations.ChecksInOrder := by
  refine ⟨fun _ => decode_reserved, fun s key data ks n => ⟨?schedKey, ?schedRange, ?genPhase,
    ?genRange, ?xorcLength, ?xorcRange, ?cryptKey, ?cryptData, ?cryptRange⟩⟩
  case schedKey => exact exec_refused (checkSched_eq_some.2 (.inl ⟨rfl, rfl⟩))
  case schedRange =>
    exact fun hkey hmax => exec_refused (checkSched_eq_some.2 (.inr ⟨hkey, hmax, rfl⟩))
  case genPhase => exact fun hphase => exec_gen_notKeyed hphase n
  case genRange =>
    exact fun hkeyed hmax => exec_refused (checkGen_eq_some.2 (.inr ⟨hkeyed, hmax, rfl⟩))
  case xorcLength => exact fun hlen => exec_refused (checkXorc_eq_some.2 (.inl ⟨hlen, rfl⟩))
  case xorcRange =>
    exact fun hlen hmax => exec_refused (checkXorc_eq_some.2 (.inr ⟨hlen, hmax, rfl⟩))
  case cryptKey => exact exec_refused (checkCrypt_eq_some.2 (.inl ⟨rfl, rfl⟩))
  case cryptData =>
    exact fun hkey => exec_refused (checkCrypt_eq_some.2 (.inr (.inl ⟨hkey, rfl, rfl⟩)))
  case cryptRange =>
    exact fun hkey hdata hmax =>
      exec_refused (checkCrypt_eq_some.2 (.inr (.inr ⟨hkey, hdata, hmax, rfl⟩)))

/-! ## The phase and the frame -/

/-- Settles O46: a command answered `Ok` was admitted, GEN by its check in KEYED only, and one answered `Err`
was refused. -/
theorem phaseTable : Obligations.PhaseTable := by
  intro s t i hexec
  refine ⟨fun payload hans => ?ok, fun k hans => ?err⟩
  case ok =>
    obtain ⟨hcheck, rfl⟩ := answers_ok hexec hans
    refine ⟨admitted_phase i s, ?_⟩
    rintro n rfl
    exact (checkGen_eq_none.1 hcheck).1
  case err => rw [eq_raise_of_answers_err hexec hans, raise_phase]

/-- Only CLEAR draws free bytes (93_implementation_defined.md U1). -/
theorem admitted_freeCount {i : Instr} (h : i ≠ .clear) (s : State) :
    (admitted i s).freeCount = s.freeCount := by
  cases i with
  | clear => exact absurd rfl h
  | stat => rfl
  | sched key => rfl
  | gen count => rfl
  | xorc data ks => rfl
  | crypt key data => rfl

/-- STAT and XORC write no register and no cell (42_cipher_engine.md R150; 43_control.md R171). -/
theorem admitted_perm_of_stat_or_xorc {i : Instr} (h : i = .stat ∨ ∃ data ks, i = .xorc data ks)
    (s : State) : (admitted i s).perm = s.perm ∧ (admitted i s).phase = s.phase := by
  obtain rfl | ⟨data, ks, rfl⟩ := h
  · exact ⟨rfl, rfl⟩
  · exact ⟨rfl, rfl⟩

/-- Settles O47: a refusal only adds its response, and the effects of the commands are known. -/
theorem commandFrame : Obligations.CommandFrame := by
  intro s t i hexec
  obtain ⟨k, -, rfl⟩ | ⟨-, rfl⟩ := exec_next.1 hexec
  · exact ⟨rfl, rfl, ⟨.err k, rfl⟩, fun _ => rfl, fun _ => ⟨rfl, rfl, rfl, fun _ => rfl⟩⟩
  · obtain ⟨payload, hout⟩ := admitted_outbox i s
    refine ⟨admitted_params i s, admitted_inbox i s, ⟨.ok payload, hout⟩,
      fun hclear => admitted_freeCount hclear s, fun hi => ?_⟩
    obtain ⟨hperm, hphase⟩ := admitted_perm_of_stat_or_xorc hi s
    exact ⟨hphase, by rw [hperm], by rw [hperm], fun a => by rw [hperm]⟩

/-! ## The canonical form -/

theorem memInv_discard (s : State) : s.discard.MemInv := wf_ofFn _

/-- Every effect leaves the store it found, writes it by swaps, or builds it anew. -/
theorem memInv_admitted {s : State} (h : s.MemInv) (i : Instr) : (admitted i s).MemInv := by
  cases i with
  | stat => exact h
  | clear => exact memInv_discard s
  | sched key => exact wf_schedule key
  | gen count => exact wf_prgaRun (p := prgaStart s.perm) h count
  | xorc data ks => exact h
  | crypt key data => exact wf_cryptRun (p := prgaStart (schedule key)) (wf_schedule key) data

theorem memInv_exec {i : Instr} {s t : State} (h : s.MemInv) (hexec : exec i s = .next t) :
    t.MemInv := by
  obtain ⟨k, -, rfl⟩ | ⟨-, rfl⟩ := exec_next.1 hexec
  · exact h
  · exact memInv_admitted h i

/-- Settles O49: a command keeps the form, a reserved byte leaves the store, and a reset builds it anew. -/
theorem canonicalStoreKept : Obligations.CanonicalStoreKept := by
  intro s t h hstep
  obtain ⟨-, he⟩ | ⟨r, rest, i, -, -, he⟩ | ⟨r, rest, k, -, -, he⟩ | ⟨e, rest, -, -, he⟩ :=
    step_cases s <;> rw [he] at hstep
  · obtain rfl := Host.Outcome.next.inj hstep
    exact h
  · exact memInv_exec (s := { s with inbox := rest }) h hstep
  · obtain rfl := Host.Outcome.next.inj hstep
    exact h
  · obtain rfl := Host.Outcome.next.inj hstep
    exact memInv_discard _

/-- Settles O50: the reset state is in IDLE, and its store lists nothing. -/
theorem resetMeetsInvariants : Obligations.ResetMeetsInvariants :=
  ⟨fun hphase => absurd rfl hphase, rfl⟩

end Sys2Proof.Machine
end


section
/-! The Codec's conversions and the host's operations (44_codec_boundary.md): which texts are hex and what they
decode to, and what ENCRYPT and DECRYPT do before, with and after their CRYPT. -/

namespace Sys2Proof.Machine

open Sys2Proof.Laws

/-! ## Digits -/

/-- Characters are ordered by their codes. -/
theorem char_le_iff {a b : Char} : a ≤ b ↔ a.toNat ≤ b.toNat := Iff.rfl

/-- The hex digits of either case and their values (44_codec_boundary.md R184). -/
theorem digitValue_eq_some {c : Char} {v : Nat} :
    digitValue c = some v ↔
      ('0' ≤ c ∧ c ≤ '9' ∧ v + 48 = c.toNat) ∨ ('A' ≤ c ∧ c ≤ 'F' ∧ v + 55 = c.toNat) ∨
        ('a' ≤ c ∧ c ≤ 'f' ∧ v + 87 = c.toNat) := by
  have hcodes : '0'.toNat = 48 ∧ '9'.toNat = 57 ∧ 'A'.toNat = 65 ∧ 'F'.toNat = 70 ∧
      'a'.toNat = 97 ∧ 'f'.toNat = 102 := by decide
  obtain ⟨h0, h9, hA, hF, ha, hf⟩ := hcodes
  simp only [char_le_iff, h0, h9, hA, hF, ha, hf, digitValue]
  split
  · rw [Option.some.injEq]; omega
  · split
    · rw [Option.some.injEq]; omega
    · split
      · rw [Option.some.injEq]; omega
      · simp only [reduceCtorEq, false_iff]; omega

/-- The digits the encoder writes are upper-case (44_codec_boundary.md R183). -/
theorem hexDigit_upper : ∀ v : BitVec 4,
    ('0' ≤ hexDigit v ∧ hexDigit v ≤ '9') ∨ ('A' ≤ hexDigit v ∧ hexDigit v ≤ 'F') := by
  decide

theorem mem_hexEncode {bs : List Byte} {c : Char} (h : c ∈ hexEncode bs) : ∃ v, c = hexDigit v := by
  obtain ⟨b, -, hc⟩ := List.mem_flatMap.1 h
  obtain rfl | hc := List.mem_cons.1 hc
  · exact ⟨_, rfl⟩
  · exact ⟨_, List.mem_singleton.1 hc⟩

/-- Settles O53: each character of the text is a digit of a half byte. -/
theorem hexRoundTrip : Obligations.HexRoundTrip := by
  refine fun bs => ⟨hexEncode_length bs, fun c hc => ?_, hexDecode_hexEncode bs⟩
  obtain ⟨v, rfl⟩ := mem_hexEncode hc
  exact hexDigit_upper v

/-! ## Decoding -/

/-- A text of two characters and more decodes exactly when both are digits and the rest decodes
(44_codec_boundary.md R184). -/
theorem hexDecode_cons_cons {h l : Char} {t : Text} {bs : List Byte} :
    hexDecode (h :: l :: t) = some bs ↔
      ∃ vh vl bs', digitValue h = some vh ∧ digitValue l = some vl ∧ hexDecode t = some bs' ∧
        bs = trunc8 (16 * vh + vl) :: bs' := by
  rw [hexDecode]
  split
  · next hh hl ht => simp [hh, hl, ht, eq_comm]
  · next hnone =>
    simp only [reduceCtorEq, false_iff]
    rintro ⟨vh, vl, bs', hh, hl, ht, -⟩
    exact hnone vh vl bs' hh hl ht

/-- Which texts are hex, by the recursion of the decoder over pairs. -/
theorem hexDecode_isSome : ∀ t : Text,
    (hexDecode t).isSome ↔ t.length % 2 = 0 ∧ ∀ c ∈ t, (digitValue c).isSome
  | [] => by simp [hexDecode]
  | [_] => by simp [hexDecode]
  | h :: l :: t => by
    have hpair : (hexDecode (h :: l :: t)).isSome ↔
        (digitValue h).isSome ∧ (digitValue l).isSome ∧ (hexDecode t).isSome := by
      simp only [Option.isSome_iff_exists, hexDecode_cons_cons]
      constructor
      · rintro ⟨_, vh, vl, bs', hh, hl, ht, -⟩
        exact ⟨⟨vh, hh⟩, ⟨vl, hl⟩, ⟨bs', ht⟩⟩
      · rintro ⟨⟨vh, hh⟩, ⟨vl, hl⟩, ⟨bs', ht⟩⟩
        exact ⟨_, vh, vl, bs', hh, hl, ht, rfl⟩
    rw [hpair, hexDecode_isSome t, List.forall_mem_cons, List.forall_mem_cons, List.length_cons,
      List.length_cons, Nat.add_assoc, Nat.add_mod_right]
    tauto

/-- Each byte stands for two characters. -/
theorem hexDecode_length : ∀ {t : Text} {bs : List Byte}, hexDecode t = some bs →
    t.length = 2 * bs.length
  | [], bs, h => by
    obtain rfl : [] = bs := by simpa [hexDecode] using h
    rfl
  | [_], _, h => by simp [hexDecode] at h
  | _ :: _ :: t, _, h => by
    obtain ⟨vh, vl, bs, -, -, ht, rfl⟩ := hexDecode_cons_cons.1 h
    have ih := hexDecode_length ht
    simp only [List.length_cons, ih]
    omega

/-- Byte `k` is read from characters `2k` and `2k + 1`. -/
theorem hexDecode_getElem? : ∀ {t : Text} {bs : List Byte} {k : Nat} {h l : Char} {vh vl : Nat},
    hexDecode t = some bs → t[2 * k]? = some h → t[2 * k + 1]? = some l →
    digitValue h = some vh → digitValue l = some vl →
    bs[k]? = some (trunc8 (16 * vh + vl))
  | [], _, _, _, _, _, _, _, hh, _, _, _ => by simp at hh
  | [_], _, _, _, _, _, _, hdecode, _, _, _, _ => by simp [hexDecode] at hdecode
  | _ :: _ :: t, _, k, h, l, vh, vl, hdecode, hh, hl, hvh, hvl => by
    obtain ⟨wh, wl, bs, hwh, hwl, ht, rfl⟩ := hexDecode_cons_cons.1 hdecode
    cases k with
    | zero =>
      obtain rfl := Option.some.inj hh
      obtain rfl := Option.some.inj hl
      obtain rfl := Option.some.inj (hwh.symm.trans hvh)
      obtain rfl := Option.some.inj (hwl.symm.trans hvl)
      rfl
    | succ k =>
      rw [List.getElem?_cons_succ]
      exact hexDecode_getElem? ht hh hl hvh hvl

/-- Settles O52: domain, length and bytes follow the decoder's recursion over pairs. -/
theorem hexDecoding : Obligations.HexDecoding :=
  ⟨hexDecode_isSome, fun _ _ => digitValue_eq_some, fun _ _ hdecode =>
    ⟨hexDecode_length hdecode, fun _ _ _ _ _ => hexDecode_getElem? hdecode⟩⟩

/-! ## The host's checks -/

theorem encrypt_empty_key (plaintext : Text) (s : State) (policy : Config.CharPolicy) :
    encrypt plaintext [] s policy = (.error (.kind .invalidKey), s) := rfl

theorem decrypt_empty_key (ciphertext : Text) (s : State) (policy : Config.CharPolicy) :
    decrypt ciphertext [] s policy = (.error (.kind .invalidKey), s) := rfl

theorem encrypt_empty_text {keytext : Text} (hkey : keytext ≠ []) (s : State)
    (policy : Config.CharPolicy) :
    encrypt [] keytext s policy = (.error (.kind .emptyInput), s) := by
  simp [encrypt, hkey]

theorem decrypt_empty_text {keytext : Text} (hkey : keytext ≠ []) (s : State)
    (policy : Config.CharPolicy) :
    decrypt [] keytext s policy = (.error (.kind .emptyInput), s) := by
  simp [decrypt, hkey]

theorem decrypt_not_hex {ciphertext keytext : Text} (hkey : keytext ≠ []) (hcipher : ciphertext ≠ [])
    (hdecode : hexDecode ciphertext = none) (s : State) (policy : Config.CharPolicy) :
    decrypt ciphertext keytext s policy = (.error (.kind .invalidCiphertextFormat), s) := by
  simp [decrypt, hkey, hcipher, hdecode]

theorem encrypt_rejected {policy : Config.CharPolicy} {plaintext keytext : Text}
    (hkey : keytext ≠ []) (hplain : plaintext ≠ [])
    (hrejects : rejects policy keytext = true ∨ rejects policy plaintext = true) (s : State) :
    encrypt plaintext keytext s policy = (.error .charRejected, s) := by
  simp [encrypt, hkey, hplain, hrejects]

theorem decrypt_rejected {policy : Config.CharPolicy} {ciphertext keytext : Text} {data : List Byte}
    (hkey : keytext ≠ []) (hcipher : ciphertext ≠ []) (hdecode : hexDecode ciphertext = some data)
    (hrejects : rejects policy keytext = true) (s : State) :
    decrypt ciphertext keytext s policy = (.error .charRejected, s) := by
  simp [decrypt, hkey, hcipher, hdecode, hrejects]

/-- Settles O55: each check is the first of its operation once those before it pass. -/
theorem hostChecksComeFirst : Obligations.HostChecksComeFirst :=
  fun policy s text _ => ⟨encrypt_empty_key text s policy, decrypt_empty_key text s policy,
    fun hkey => ⟨encrypt_empty_text hkey s policy, decrypt_empty_text hkey s policy⟩,
    fun hkey htext hdecode => decrypt_not_hex hkey htext hdecode s policy⟩

/-! ## The host's operations -/

/-- Settles O56: operands the host's checks let through under the default policy make both operations one
admitted CRYPT. -/
theorem hostOperationsExpand : Obligations.HostOperationsExpand := by
  refine ⟨?encrypt, ?decrypt⟩
  case encrypt =>
    intro s plaintext keytext hplain hkey hkmax hpmax
    rw [← textBytes_length] at hkmax hpmax
    have hkeyBytes : textBytes keytext ≠ [] := mt textBytes_eq_nil.1 hkey
    have hplainBytes : textBytes plaintext ≠ [] := mt textBytes_eq_nil.1 hplain
    refine ⟨admitted (.crypt (textBytes keytext) (textBytes plaintext)) s,
      cryptBytes (textBytes keytext) (textBytes plaintext),
      exec_crypt_admitted hkeyBytes hplainBytes hkmax hpmax, admitted_crypt_answers _ _ s, ?_⟩
    rw [encrypt_eq_hostCrypt s hkey hplain (rejects_default _) (rejects_default _),
      hostCrypt_admitted hkeyBytes hplainBytes hkmax hpmax]
  case decrypt =>
    intro s ciphertext keytext data hcipher hkey hdecode hkmax hdmax
    rw [← textBytes_length] at hkmax
    have hkeyBytes : textBytes keytext ≠ [] := mt textBytes_eq_nil.1 hkey
    have hdata : data ≠ [] := by
      rintro rfl
      exact hcipher (List.length_eq_zero_iff.1 (hexDecode_length hdecode))
    refine ⟨admitted (.crypt (textBytes keytext) data) s, cryptBytes (textBytes keytext) data,
      exec_crypt_admitted hkeyBytes hdata hkmax hdmax, admitted_crypt_answers _ _ s, ?_⟩
    rw [decrypt_eq_hostCrypt s hkey hcipher hdecode (rejects_default _),
      hostCrypt_admitted hkeyBytes hdata hkmax hdmax]

/-! ## The character policy -/

/-- One byte for each character, its code mod 256 (44_codec_boundary.md R181, R182). -/
theorem textBytes_getElem? {t : Text} {k : Nat} {c : Char} (h : t[k]? = some c) :
    (textBytes t)[k]? = some (trunc8 c.toNat) := by
  rw [textBytes, List.getElem?_map, h, Option.map_some]

/-- What CRYPT gives the host is a text or a kind of the block's (44_codec_boundary.md R186). -/
theorem hostCrypt_ne_charRejected (toText : List Byte → Text) (key data : List Byte) (s : State) :
    (hostCrypt toText key data s).1 ≠ .error .charRejected := by
  obtain ⟨t, r, hexec, hans, -⟩ := exec_completes (.crypt key data) s
  rw [hostCrypt_next hexec hans]
  cases r with
  | ok payload => exact nofun
  | err k => simp

theorem encrypt_default_ne_charRejected (plaintext keytext : Text) (s : State) :
    (encrypt plaintext keytext s).1 ≠ .error .charRejected := by
  by_cases hkey : keytext = []
  · simp [hkey, encrypt_empty_key]
  by_cases hplain : plaintext = []
  · simp [hplain, encrypt_empty_text hkey]
  rw [encrypt_eq_hostCrypt s hkey hplain (rejects_default _) (rejects_default _)]
  exact hostCrypt_ne_charRejected _ _ _ s

theorem decrypt_default_ne_charRejected (ciphertext keytext : Text) (s : State) :
    (decrypt ciphertext keytext s).1 ≠ .error .charRejected := by
  by_cases hkey : keytext = []
  · simp [hkey, decrypt_empty_key]
  by_cases hcipher : ciphertext = []
  · simp [hcipher, decrypt_empty_text hkey]
  cases hdecode : hexDecode ciphertext with
  | none => simp [decrypt_not_hex hkey hcipher hdecode]
  | some data =>
    rw [decrypt_eq_hostCrypt s hkey hcipher hdecode (rejects_default _)]
    exact hostCrypt_ne_charRejected _ _ _ s

/-- Settles O57: the default policy turns no text away, so only CRYPT's own answer is left; `reject` turns away
a text with a wide character once the checks before it pass. -/
theorem charPolicyGoverns : Obligations.CharPolicyGoverns := by
  refine ⟨rfl, ?bytes, ?truncates, ?encrypt, ?decrypt⟩
  case bytes =>
    exact fun t => ⟨textBytes_length t, fun k c hc =>
      ⟨trunc8 c.toNat, textBytes_getElem? hc, BitVec.toNat_ofNat c.toNat 8⟩⟩
  case truncates =>
    exact fun s text keytext => ⟨encrypt_default_ne_charRejected text keytext s,
      decrypt_default_ne_charRejected text keytext s⟩
  case encrypt =>
    rintro s plaintext keytext hplain hkey ⟨c, hc, hwide⟩
    refine encrypt_rejected hkey hplain ?_ s
    exact (List.mem_append.1 hc).imp (fun hmem => rejects_reject.2 ⟨c, hmem, hwide⟩)
      fun hmem => rejects_reject.2 ⟨c, hmem, hwide⟩
  case decrypt =>
    rintro s ciphertext keytext hcipher hdecode ⟨c, hc, hwide⟩
    obtain ⟨data, hdata⟩ := Option.ne_none_iff_exists'.1 hdecode
    exact decrypt_rejected (List.ne_nil_of_mem hc) hcipher hdata
      (rejects_reject.2 ⟨c, hc, hwide⟩) s

end Sys2Proof.Machine
end
